-- ==== Sys2Proof/Word.lean ====
section
/-! DEFINITION. The word types of the core (00_scope.md R9, R10; 10_state.md R30). -/

namespace Sys2Proof

/-- One byte: a general register, a timer, a byte of memory (R30). -/
abbrev Byte := BitVec 8

/-- Sixteen bits: PC, I, a call-stack entry, an instruction word (R30, R100). -/
abbrev Word := BitVec 16

/-- A 12-bit address operand `nnn` (R101, R103). -/
abbrev Addr12 := BitVec 12

/-- The number of a general register, 0x0..0xF (R32). -/
abbrev Reg := Fin 16

/-- A key index, 0..15 (R7 `NUM_KEYS`). -/
abbrev Key := Fin 16

/-- Column 0..63 of the display (R49). -/
abbrev Col := Fin 64

/-- Row 0..31 of the display (R49). -/
abbrev Row := Fin 32

end Sys2Proof
end

