-- ==== Sys2Proof/Machine/Flags.lean ====
section
/-! DEFINITION. The flag bytes that go into VF (10_state.md R33; 42_alu.md R177 to R181), each 1 or 0. -/

namespace Sys2Proof.Machine

/-- A condition as the byte VF receives. -/
def flagByte (c : Bool) : Byte := if c then 1 else 0

/-- `8xy4`: the carry out of bit 7 (R177). -/
def addCarry (a b : Byte) : Byte := flagByte (decide (256 ≤ a.toNat + b.toNat))

/-- `8xy5` with `a = Vx`, `8xy7` with `a = Vy`: 1 iff `a > b`, strictly (R178, R180). -/
def subFlag (a b : Byte) : Byte := flagByte (decide (b.toNat < a.toNat))

/-- `8xy6`: the bit shifted out, bit 0 (R179). -/
def shrFlag (a : Byte) : Byte := flagByte (a.getLsbD 0)

/-- `8xyE`: the bit shifted out, bit 7 (R181). -/
def shlFlag (a : Byte) : Byte := flagByte (a.getLsbD 7)

end Sys2Proof.Machine
end

