-- ==== Sys2Proof/Config.lean ====
section
/-! DEFINITION. What an implementation fixes: the fixed parameters of 00_scope.md R7, the open parameters of R8 as one
record `Config`, and the inputs that the host's Platform port supplies to a step (40_engine.md R130). -/

namespace Sys2Proof

/-! ### Fixed parameters (R7) -/

/-- `MEM_SIZE`: 4096 bytes, addresses 0x000..0xFFF. -/
def memSize : Nat := 4096

/-- `STACK_DEPTH`: 16 entries. -/
def stackDepth : Nat := 16

/-- `FONT_SIZE`: 16 glyphs of 5 bytes. -/
def fontSize : Nat := 80

/-- `PROGRAM_BASE`: where a ROM is loaded, and the reset PC. -/
def programBase : Nat := 0x200

/-- `ROM_MAX`: the longest ROM that `load` accepts. -/
def romMax : Nat := 3584

/-! ### Open parameters (R8) -/

/-- `MEM_OOB` (20_memory.md R72): what an access at an address of 4096 or more does. -/
inductive MemOob where
  | wrap
  | fault
  deriving DecidableEq, Repr

/-- `SYS_0NNN` (30_encoding.md R108): what `0nnn` other than `00E0` and `00EE` does. -/
inductive SysMode where
  | decodeError
  | nop
  deriving DecidableEq, Repr

/-- `KEY_INDEX_OOR` (45_keys_timers.md R233): a key index of 16 or more. -/
inductive KeyIndexOor where
  | notPressed
  | lowNibble
  | ubStop
  deriving DecidableEq, Repr

/-- `DRAIN_ATOMICITY` (44_display.md R219): whether a drain may fall inside `00E0` and `Dxyn`. -/
inductive DrainAtomicity where
  | instruction
  | pixel
  deriving DecidableEq, Repr

/-- `FONT` (10_state.md R52): 16 glyphs of 5 bytes, glyph d at address 5·d. -/
abbrev Font := Vector (Vector Byte 5) 16

/-- The open parameters of R8, `T0` apart: `T0` is an argument of a load (R280). -/
structure Config where
  /-- `TICK_PERIOD_MS` is the rational `tickNum / tickDen` milliseconds. -/
  tickNum : Nat
  tickDen : Nat
  font : Font
  memOob : MemOob
  sys : SysMode
  keyOor : KeyIndexOor
  drainAtomicity : DrainAtomicity
  deriving DecidableEq, Repr

/-- The default `FONT` of R52 (general knowledge in the spec, D15; log entry 4). -/
def Font.common : Font :=
  #v[#v[0xF0, 0x90, 0x90, 0x90, 0xF0], #v[0x20, 0x60, 0x20, 0x20, 0x70],
     #v[0xF0, 0x10, 0xF0, 0x80, 0xF0], #v[0xF0, 0x10, 0xF0, 0x10, 0xF0],
     #v[0x90, 0x90, 0xF0, 0x10, 0x10], #v[0xF0, 0x80, 0xF0, 0x10, 0xF0],
     #v[0xF0, 0x80, 0xF0, 0x90, 0xF0], #v[0xF0, 0x10, 0x20, 0x40, 0x40],
     #v[0xF0, 0x90, 0xF0, 0x90, 0xF0], #v[0xF0, 0x90, 0xF0, 0x10, 0xF0],
     #v[0xF0, 0x90, 0xF0, 0x90, 0x90], #v[0xE0, 0x90, 0xE0, 0x90, 0xE0],
     #v[0xF0, 0x80, 0x80, 0x80, 0xF0], #v[0xE0, 0x90, 0x90, 0x90, 0xE0],
     #v[0xF0, 0x80, 0xF0, 0x80, 0xF0], #v[0xF0, 0x80, 0xF0, 0x80, 0x80]]

/-- Every open parameter at the default of R8. -/
def Config.standard : Config where
  tickNum := 50
  tickDen := 3
  font := Font.common
  memOob := .wrap
  sys := .decodeError
  keyOor := .notPressed
  drainAtomicity := .instruction

/-! ### Inputs of a step (R130) -/

/-- What the host's Platform port answers during one step (R130, R262), with the host's choices that `DRAIN_ATOMICITY = pixel`
leaves open (R219). `drains` and `clearOrder` are read under `pixel` only. -/
structure StepInput where
  /-- `now()`, milliseconds. -/
  now : Nat
  /-- `randomByte()`. -/
  rnd : Byte
  /-- `isKeyDown(k)` for k = 0..15. -/
  keys : Vector Bool 16
  /-- A drain falls after the k-th pixel write of this step's instruction, for each k listed; listing k again adds none (log entries
  9 and 21). -/
  drains : List Nat
  /-- The pixels that a `clear` visits first, in this order; it then visits the others (log entry 9). -/
  clearOrder : List (Col × Row)
  deriving DecidableEq, Repr, Inhabited

/-- The port at rest: clock at `t`, no key down. -/
def StepInput.idle (t : Nat) : StepInput where
  now := t
  rnd := 0
  keys := Vector.replicate 16 false
  drains := []
  clearOrder := []

/-- FREE VALUE: what the Platform port answers to the k-th step for which State lists no host event (R14, R130: "free inputs
(draws) of each step"; log entry 6). It has no body, so no proof knows a value of it. -/
opaque Config.freeInput : Nat → StepInput

end Sys2Proof
end

