-- ==== Sys2Proof/Syntax.lean ====
section
/-! DEFINITION. The instructions: one constructor per row of spec/opcode_table.json (30_encoding.md R105), in the table's order.
Every operand's type is exactly the field its format gives it (R101, R102), so a term out of an operand's range cannot be written. -/

namespace Sys2Proof

/-- The 34 instructions of R105. `x`, `y` name registers; `kk` is the 8-bit immediate, `nnn` the 12-bit address, `n` the row
count 0..15 (R103). -/
inductive Instr where
  /-- `00E0` CLS -/
  | cls
  /-- `00EE` RET -/
  | ret
  /-- `1nnn` JP nnn -/
  | jp (nnn : Addr12)
  /-- `2nnn` CALL nnn -/
  | call (nnn : Addr12)
  /-- `3xkk` SE Vx, kk -/
  | seImm (x : Reg) (kk : Byte)
  /-- `4xkk` SNE Vx, kk -/
  | sneImm (x : Reg) (kk : Byte)
  /-- `5xy0` SE Vx, Vy -/
  | seReg (x y : Reg)
  /-- `6xkk` LD Vx, kk -/
  | ldImm (x : Reg) (kk : Byte)
  /-- `7xkk` ADD Vx, kk -/
  | addImm (x : Reg) (kk : Byte)
  /-- `8xy0` LD Vx, Vy -/
  | ldReg (x y : Reg)
  /-- `8xy1` OR Vx, Vy -/
  | orReg (x y : Reg)
  /-- `8xy2` AND Vx, Vy -/
  | andReg (x y : Reg)
  /-- `8xy3` XOR Vx, Vy -/
  | xorReg (x y : Reg)
  /-- `8xy4` ADD Vx, Vy -/
  | addReg (x y : Reg)
  /-- `8xy5` SUB Vx, Vy -/
  | subReg (x y : Reg)
  /-- `8xy6` SHR Vx, Vy; `y` is encoded and ignored (R179) -/
  | shr (x y : Reg)
  /-- `8xy7` SUBN Vx, Vy -/
  | subnReg (x y : Reg)
  /-- `8xyE` SHL Vx, Vy; `y` is encoded and ignored (R181) -/
  | shl (x y : Reg)
  /-- `9xy0` SNE Vx, Vy -/
  | sneReg (x y : Reg)
  /-- `Annn` LD I, nnn -/
  | ldI (nnn : Addr12)
  /-- `Bnnn` JP V0, nnn -/
  | jpV0 (nnn : Addr12)
  /-- `Cxkk` RND Vx, kk -/
  | rnd (x : Reg) (kk : Byte)
  /-- `Dxyn` DRW Vx, Vy, n -/
  | drw (x y : Reg) (n : Fin 16)
  /-- `Ex9E` SKP Vx -/
  | skp (x : Reg)
  /-- `ExA1` SKNP Vx -/
  | sknp (x : Reg)
  /-- `Fx07` LD Vx, DT -/
  | ldVxDt (x : Reg)
  /-- `Fx0A` LD Vx, K -/
  | ldVxK (x : Reg)
  /-- `Fx15` LD DT, Vx -/
  | ldDtVx (x : Reg)
  /-- `Fx18` LD ST, Vx -/
  | ldStVx (x : Reg)
  /-- `Fx1E` ADD I, Vx -/
  | addI (x : Reg)
  /-- `Fx29` LD F, Vx -/
  | ldF (x : Reg)
  /-- `Fx33` LD B, Vx -/
  | ldB (x : Reg)
  /-- `Fx55` LD [I], Vx -/
  | storeRegs (x : Reg)
  /-- `Fx65` LD Vx, [I] -/
  | loadRegs (x : Reg)
  deriving DecidableEq, Repr

end Sys2Proof
end

