-- ==== Sys2Proof/Machine/State.lean ====
section
/-! DEFINITION. The state of the core (10_state.md R30), the reasons a step can end without a next state, and the state after reset.
Beside the spec's state it holds the parameters of R8 and what stands at the core's boundary with its host: the port's answers,
the host's pending events, the drained updates (log entries 2, 6, 8). -/

namespace Sys2Proof.Machine

/-! ### Errors and run state (R47, R250 to R254) -/

/-- The kind of a stack fault (R251). -/
inductive StackFaultKind where
  | overflow
  | underflow
  deriving DecidableEq, Repr

/-- Why an undefined behaviour was refused under a non-default parameter (R254). -/
inductive UbReason where
  /-- The lowest address of 4096 or more in the access range (R72). -/
  | memoryRange (a : Nat)
  /-- The key index, 16 or more (R233). -/
  | keyIndex (k : Byte)
  deriving DecidableEq, Repr

/-- A fatal error with its record (R250, R251, R254). `op` is absent where no word was read (R132). -/
inductive Error where
  | decodeError (pc op : Word)
  | stackFault (pc op : Word) (kind : StackFaultKind)
  | ubStop (pc : Word) (op : Option Word) (reason : UbReason)
  deriving DecidableEq, Repr

/-- The run state (R47). -/
inductive Status where
  | running
  | waitKey (x : Reg)
  | halted (e : Error)
  | stopped
  deriving DecidableEq, Repr

/-! ### Memory and display -/

/-- The 4096 bytes of memory (R48): the bytes that differ from the reset contents, addresses strictly rising
(Machine/Memory.lean). -/
abbrev Memory := List Host.Cell

/-- A 64 × 32 grid of booleans, row by row (R49). -/
abbrev Grid := Vector (Vector Bool 64) 32

/-- One drained pixel: its coordinates and its value (R214). -/
structure PixelUpdate where
  x : Col
  y : Row
  on : Bool
  deriving DecidableEq, Repr

/-- The display buffer: values, dirty bits (R49, R210), and the pixel-update stream it has handed to the host (R262, R263), the
latest drain first (log entry 8). -/
structure Display where
  pix : Grid
  dirty : Grid
  out : List (List PixelUpdate)
  deriving DecidableEq, Repr

def Grid.blank : Grid := Vector.replicate 32 (Vector.replicate 64 false)

/-- A fresh display: every pixel off and clean (R53). -/
def Display.fresh : Display := ⟨Grid.blank, Grid.blank, []⟩

/-! ### The host's events (R264) -/

/-- What the host does to the core, one event at a time (R264). `load` carries the parameter `T0` of the new core (R280). -/
inductive HostEvent where
  | step (inp : StepInput)
  | press (k : Key)
  | cancel
  | drain
  | load (t0 : Nat) (rom : List Byte)
  deriving DecidableEq, Repr

/-! ### The state -/

/-- The tuple of R30, then the model's own fields. -/
structure State where
  /-- `V0..VF` (R32). -/
  v : Vector Byte 16
  /-- `I` (R39). -/
  i : Word
  /-- `PC` (R35). -/
  pc : Word
  /-- `SP`, 0..16 (R42). -/
  sp : Fin 17
  /-- The call stack (R41). -/
  stack : Vector Word 16
  /-- `DT` (R45). -/
  dt : Byte
  /-- `ST` (R45). -/
  st : Byte
  /-- `mem` (R48). -/
  mem : Memory
  /-- `pix` and `dirty` (R49). -/
  disp : Display
  /-- `tickRef`, milliseconds (R46). -/
  tickRef : Nat
  /-- `status` (R47). -/
  status : Status
  /-- The parameters of R8; no step changes them (log entry 2). -/
  cfg : Config
  /-- The Platform port's answers to the latest step (R130, R262); `port.now` is the host's clock as last seen (log entry 6). -/
  port : StepInput
  /-- The host's pending events, the next one first (R264; log entry 6). -/
  host : List HostEvent
  /-- How many inputs have been drawn from `Config.freeInput` (log entry 6). -/
  draws : Nat
  deriving DecidableEq, Repr

/-- Why the machine ends without a core. The fatal errors of R250 to R254 are no faults here: a raising step answers a next state
with `status = halted` (R253). -/
inductive Fault where
  /-- `LoadError(RomTooLarge(len))`, error code 6: raised by the host event `load` alone; no core is created (R255, R282). Safe:
  the spec leaves no state either. -/
  | romTooLarge (len : Nat)
  deriving DecidableEq, Repr

/-- Why an instruction has no meaning. -/
inductive Refusal where
  /-- Raised by an arm of `exec` whose instruction is not modelled; no arm raises it now. Safe. -/
  | notModelled (mnemonic : String)
  deriving DecidableEq, Repr

/-- What a step answers. -/
abbrev Result := Host.Outcome State Fault Refusal

/-! ### Reset (R53) -/

/-- A core right after a load that left `mem` in memory, with `T0 = t0` (R53, R280). -/
def State.fresh (cfg : Config) (t0 : Nat) (mem : Memory) : State where
  v := Vector.replicate 16 0
  i := 0
  pc := 0x200
  sp := 0
  stack := Vector.replicate 16 0
  dt := 0
  st := 0
  mem := mem
  disp := Display.fresh
  tickRef := t0
  status := .running
  cfg := cfg
  port := StepInput.idle t0
  host := []
  draws := 0

/-- The machine right after reset: the default parameters, an empty ROM and `T0 = 0` (R53; log entries 1 to 3). -/
def State.reset : State := State.fresh Config.standard 0 []

end Sys2Proof.Machine
end

