-- ==== Sys2Proof/Machine/Display.lean ====
section
/-! DEFINITION. The display buffer's operations: `set`, `clear` and `drainUpdates` (44_display.md R210 to R214), and a sprite as a
sequence of `set` calls (R216). Where `DRAIN_ATOMICITY = pixel` lets the host drain inside an instruction (R219), the operation
takes the drains as `mid`: whether one falls after the k-th pixel write. -/

namespace Sys2Proof.Machine

/-- The bit at column `x`, row `y`. -/
def Grid.at (g : Grid) (x : Col) (y : Row) : Bool := (g[y])[x]

/-- Write the bit at column `x`, row `y`. -/
def Grid.put (g : Grid) (x : Col) (y : Row) (b : Bool) : Grid := Vector.set g y ((g[y]).set x b)

/-- Each axis wraps by its own extent (R211). -/
def wrapCol (x : Nat) : Col := Fin.ofNat 64 x

def wrapRow (y : Nat) : Row := Fin.ofNat 32 y

/-- `set(x, y, bit)`: XOR the pixel, mark it dirty iff it changed, report a collision, on to off (R211). -/
def Display.set (d : Display) (x y : Nat) (bit : Bool) : Display × Bool :=
  let old := d.pix.at (wrapCol x) (wrapRow y)
  let new := old ^^ bit
  ({ d with
      pix := d.pix.put (wrapCol x) (wrapRow y) new
      dirty := if old = new then d.dirty else d.dirty.put (wrapCol x) (wrapRow y) true },
   old && !new)

/-- `clear()`: every pixel off; the pixels that were on become dirty, the others keep their dirty bit (R212). -/
def Display.clear (d : Display) : Display :=
  { d with
    pix := Grid.blank
    dirty := Vector.ofFn fun y => Vector.ofFn fun x => d.dirty.at x y || d.pix.at x y }

/-- Every pixel, row by row from the top, each row from the left. -/
def raster : List (Col × Row) := (List.finRange 32).flatMap fun y => (List.finRange 64).map fun x => (x, y)

/-- The dirty pixels with their present values (R214); the spec returns a set, listed here in raster order (log entry 8). -/
def Display.updates (d : Display) : List PixelUpdate :=
  (raster.filter fun p => d.dirty.at p.1 p.2).map fun p => ⟨p.1, p.2, d.pix.at p.1 p.2⟩

/-- `drainUpdates()`: hand the dirty pixels to the host and clear their dirty bits (R214). -/
def Display.drain (d : Display) : Display := { d with dirty := Grid.blank, out := d.updates :: d.out }

/-! ### Drawing (R216) -/

/-- One call of `set`. -/
structure SetCall where
  x : Nat
  y : Nat
  bit : Bool
  deriving DecidableEq, Repr

/-- The 8 calls of one sprite row: bit 7 at column `cx`, bit 0 at column `cx + 7` (R217). -/
def rowCalls (cx cy : Nat) (row : Byte) : List SetCall :=
  (List.range 8).map fun j => ⟨cx + j, cy, row.getLsbD (7 - j)⟩

/-- The calls of a sprite, row after row downward (R216). -/
def spriteCalls (cx cy : Nat) : List Byte → List SetCall
  | [] => []
  | row :: rows => rowCalls cx cy row ++ spriteCalls cx (cy + 1) rows

/-- Perform the calls in order, the first being call number `k + 1`; the flag says whether any reported a collision. A drain may
fall between two calls, so none falls after the last (R219b). -/
def Display.run (mid : Nat → Bool) (k : Nat) : List SetCall → Display → Display × Bool
  | [], d => (d, false)
  | c :: cs, d =>
    let p := d.set c.x c.y c.bit
    let q := Display.run mid (k + 1) cs (if mid (k + 1) && !cs.isEmpty then p.1.drain else p.1)
    (q.1, p.2 || q.2)

/-! ### Clearing pixel by pixel (R212, R219b) -/

/-- `clear`'s update of one pixel. -/
def Display.clearPixel (d : Display) (p : Col × Row) : Display :=
  if d.pix.at p.1 p.2 then { d with pix := d.pix.put p.1 p.2 false, dirty := d.dirty.put p.1 p.2 true } else d

/-- Clear the pixels listed, in order, the first being update number `k + 1`. DESIGN CHOICE: every visit counts as a pixel update, that
of a pixel already off too, so a drain may fall after one (R219 does not say; log entry 22). -/
def Display.clearEach (mid : Nat → Bool) (k : Nat) : List (Col × Row) → Display → Display
  | [], d => d
  | p :: ps, d =>
    Display.clearEach mid (k + 1) ps (if mid (k + 1) && !ps.isEmpty then (d.clearPixel p).drain else d.clearPixel p)

end Sys2Proof.Machine
end

