-- ==== Sys2Proof/Machine/Memory.lean ====
section
/-! DEFINITION. The 4096-byte memory (20_memory.md R70 to R74): a list of the bytes that differ from what an unlisted address reads
as, addresses strictly rising. Every operation takes the parameter `FONT`, which fixes that reset content (R52, R53). -/

namespace Sys2Proof.Machine

/-- The memory controller's address map: bits 11..0 of the address (R72a). -/
def mapAddr (a : Nat) : Nat := a % memSize

/-- What an unlisted address reads as: the reset contents, the font at 0x000..0x04F and zero above (R53). -/
def Memory.unlisted (font : Font) (a : Nat) : Byte :=
  if h : a < 80 then (font[a / 5]'(by omega))[a % 5]'(Nat.mod_lt _ (by decide)) else 0

/-- The byte at address `a`, `a < 4096`. -/
def Memory.read (font : Font) : Memory → Nat → Byte
  | [], a => Memory.unlisted font a
  | (b, w) :: m, a => if b = a then w else Memory.read font m a

/-- List the byte `v` at `a`, in its place by address. -/
def Memory.insert (a : Nat) (v : Byte) : Memory → Memory
  | [] => [(a, v)]
  | (b, w) :: m =>
    if a < b then (a, v) :: (b, w) :: m else if a = b then (a, v) :: m else (b, w) :: Memory.insert a v m

/-- List nothing at `a`. -/
def Memory.erase (a : Nat) : Memory → Memory
  | [] => []
  | (b, w) :: m => if b = a then Memory.erase a m else (b, w) :: Memory.erase a m

/-- Store `v` at `a`, `a < 4096`; writing what an unlisted address reads as removes the entry. -/
def Memory.write (font : Font) (m : Memory) (a : Nat) (v : Byte) : Memory :=
  if v = Memory.unlisted font a then Memory.erase a m else Memory.insert a v m

/-- The canonical form: addresses strictly rising, all of them below 4096, no entry equal to the unlisted byte. -/
def Memory.wf (font : Font) : Memory → Bool
  | [] => true
  | (a, w) :: m =>
    decide (a < memSize) && decide (w ≠ Memory.unlisted font a) && m.all (fun c => decide (a < c.1)) && Memory.wf font m

/-- The listing of a byte string laid out from address `a` up over the reset contents (R280). -/
def Memory.image (font : Font) (a : Nat) : List Byte → Memory
  | [] => []
  | b :: bs => if b = Memory.unlisted font a then Memory.image font (a + 1) bs else (a, b) :: Memory.image font (a + 1) bs

/-! ### Access through the state (R12) -/

/-- `MemRead(a, 1)` under the map of R72a. -/
def State.readByte (s : State) (a : Nat) : Byte := s.mem.read s.cfg.font (mapAddr a)

/-- `MemWrite(a, 1, v)` under the map of R72a. -/
def State.writeByte (s : State) (a : Nat) (v : Byte) : State :=
  { s with mem := s.mem.write s.cfg.font (mapAddr a) v }

/-- Single-byte stores at consecutive addresses from `a` upward (R74, R190). -/
def State.storeBytes (s : State) (a : Nat) : List Byte → State
  | [] => s
  | b :: bs => (s.writeByte a b).storeBytes (a + 1) bs

/-- Single-byte reads at `n` consecutive addresses from `a` upward (R74, R190). -/
def State.readBytes (s : State) (a : Nat) : Nat → List Byte
  | 0 => []
  | n + 1 => s.readByte a :: s.readBytes (a + 1) n

/-- The lowest address of 4096 or more among the `len` addresses from `a` upward, where `MEM_OOB = fault` refuses it (R72b). -/
def State.rangeFault (s : State) (a len : Nat) : Option Nat :=
  match s.cfg.memOob with
  | .wrap => none
  | .fault => if 0 < len ∧ memSize < a + len then some (max a memSize) else none

end Sys2Proof.Machine
end

