-- ==== Sys2Proof/Machine/Operands.lean ====
section
/-! DEFINITION. How an instruction reaches its operands: registers (10_state.md R32), addresses (30_encoding.md R103), memory at
`I + k` (43_index_memory.md R190), decimal digits (R194), keys (45_keys_timers.md R230 to R233) and the sprite of a draw (44_display.md
R216). -/

namespace Sys2Proof.Machine

/-- VF, the flag register (R33). -/
def flagReg : Reg := 15

/-- `V[x]` (R11). -/
def State.getV (s : State) (x : Reg) : Byte := s.v[x]

/-- `V[x] <- b` (R11). -/
def State.setV (s : State) (x : Reg) (b : Byte) : State := { s with v := s.v.set x b }

/-- `zext_16(nnn)` (R103). -/
def addrWord (nnn : Addr12) : Word := nnn.setWidth 16

/-- The address a data access starts from: `I` as a natural number (R190). -/
def State.base (s : State) : Nat := s.i.toNat

/-- `V0..Vx` (R195). -/
def State.regsThrough (s : State) (x : Reg) : List Byte := s.v.toList.take (x.val + 1)

/-- Hundreds, tens and ones (R194). -/
def decimalDigits (a : Byte) : List Byte := [a / 100, (a / 10) % 10, a % 10]

/-- Whether key `k` is pressed, `keys[k]` or `KeyOOR(k)`; `none` where `KEY_INDEX_OOR = ub_stop` refuses the index (R231 to R233). -/
def State.keyPressed (s : State) (k : Byte) : Option Bool :=
  if h : k.toNat < 16 then some (s.port.keys[k.toNat])
  else
    match s.cfg.keyOor with
    | .notPressed => some false
    | .lowNibble => some (s.port.keys[k.toNat % 16]'(Nat.mod_lt _ (by decide)))
    | .ubStop => none

/-- The `set` calls of `Dxyn`: n rows from memory at I, drawn at column Vx and row Vy (R216). -/
def State.drawCalls (s : State) (x y : Reg) (n : Fin 16) : List SetCall :=
  spriteCalls (s.getV x).toNat (s.getV y).toNat (s.readBytes s.base n.val)

/-- Whether the host drains after the k-th pixel write of this step's instruction (R219). DESIGN CHOICE: at most one drain falls between
two writes; R219 gives no limit, and a further one would return the empty set (R214; log entry 21). -/
def State.midDrain (s : State) (k : Nat) : Bool :=
  match s.cfg.drainAtomicity with
  | .instruction => false
  | .pixel => s.port.drains.contains k

end Sys2Proof.Machine
end

