-- ==== Sys2Proof/Machine/Ops.lean ====
section
/-! DEFINITION. The operations that the meanings share: the PC update (40_engine.md R136 to R138), the call stack (10_state.md R43),
flag-then-result writes (42_alu.md R170), the display (44_display.md), the timer update (R134) and raising an error (R142, R253).
The core has no handler and no trap return (60_exceptions.md R258), so nothing stands beside `raise`. -/

namespace Sys2Proof.Machine

/-! ### The PC update -/

/-- Normal advance: `PC <- PC + 2`, modulo 2^16 (R136). -/
def State.advance (s : State) : State := { s with pc := s.pc + 2 }

/-- A conditional skip: `PC <- PC + 4` when `c` holds, else `PC <- PC + 2` (R137). -/
def State.skipIf (s : State) (c : Bool) : State := { s with pc := if c then s.pc + 4 else s.pc + 2 }

/-- `PC <- target` (R138). -/
def State.jump (s : State) (target : Word) : State := { s with pc := target }

/-! ### Errors -/

/-- Raising a fatal error: the core stops in `Halted(e)` with everything else as it was (R142, R253, R258). -/
def State.raise (s : State) (e : Error) : State := { s with status := .halted e }

/-- The error's code (R252). -/
def Error.code : Error → Nat
  | .decodeError _ _ => 1
  | .stackFault _ _ .overflow => 2
  | .stackFault _ _ .underflow => 3
  | .ubStop _ _ (.memoryRange _) => 4
  | .ubStop _ _ (.keyIndex _) => 5

/-- The PC that the error records. -/
def Error.pc : Error → Word
  | .decodeError pc _ => pc
  | .stackFault pc _ _ => pc
  | .ubStop pc _ _ => pc

/-- Run `k` unless the access of `len` bytes at I leaves memory under `MEM_OOB = fault`; `op` is the instruction's word. The whole
range is checked before the first access (R72b, R190). -/
def State.withRange (s : State) (op : Word) (len : Nat) (k : State) : State :=
  match s.rangeFault s.base len with
  | some a => s.raise (.ubStop s.pc (some op) (.memoryRange a))
  | none => k

/-! ### The call stack (R43) -/

/-- `push(v); PC <- target`, or a stack fault before any write. -/
def State.pushJump (s : State) (op v target : Word) : State :=
  if h : s.sp.val < 16 then
    { s with stack := s.stack.set s.sp.val v, sp := ⟨s.sp.val + 1, by omega⟩, pc := target }
  else s.raise (.stackFault s.pc op .overflow)

/-- `PC <- pop() + 2`, or a stack fault before any write; the popped entry keeps its value (R44). -/
def State.popJump (s : State) (op : Word) : State :=
  if h : 0 < s.sp.val then
    { s with sp := ⟨s.sp.val - 1, by omega⟩, pc := s.stack[s.sp.val - 1] + 2 }
  else s.raise (.stackFault s.pc op .underflow)

/-! ### Registers -/

/-- Write the flag into VF, then the result into Vx (R170): with x = F the result stays. -/
def State.setFlagThenV (s : State) (x : Reg) (flag result : Byte) : State := (s.setV flagReg flag).setV x result

/-- `V0..Vx` from consecutive bytes at I (R196). -/
def State.loadThrough (s : State) (x : Reg) : State :=
  { s with v := Vector.ofFn fun k : Fin 16 => if k ≤ x then s.readByte (s.base + k.val) else s.v[k] }

/-! ### Display -/

/-- `clear()` as an instruction performs it: at once, or pixel by pixel with the host's drains under `DRAIN_ATOMICITY = pixel`
(R212, R219; what counts as a pixel update there is log entry 22). -/
def State.clearDisplay (s : State) : State :=
  { s with
    disp :=
      match s.cfg.drainAtomicity with
      | .instruction => s.disp.clear
      | .pixel => s.disp.clearEach s.midDrain 0 (s.port.clearOrder ++ raster) }

/-- Perform the `set` calls, then write the collision flag (R216). -/
def State.draw (s : State) (calls : List SetCall) : State :=
  let p := s.disp.run s.midDrain 0 calls
  { s with disp := p.1 }.setV flagReg (flagByte p.2)

/-! ### Timers (R134) -/

/-- One tick period has passed since the last tick: `now - tickRef >= TICK_PERIOD_MS`, over the integers. -/
def State.tickDue (s : State) : Bool :=
  decide (s.cfg.tickDen * s.tickRef + s.cfg.tickNum ≤ s.cfg.tickDen * s.port.now)

/-- A timer's tick: down by 1, never below 0 (R45). -/
def decTimer (t : Byte) : Byte := if t = 0 then 0 else t - 1

/-- `TimerUpdate(now)`. -/
def State.timerUpdate (s : State) : State :=
  { s with
    dt := if s.tickDue then decTimer s.dt else s.dt
    st := if s.tickDue then decTimer s.st else s.st
    tickRef := if s.tickDue then s.port.now else s.tickRef }

end Sys2Proof.Machine
end

