-- ==== Sys2Proof/Machine/Alu.lean ====
section
/-! DEFINITION. Register loads, arithmetic and the random byte (42_alu.md R170 to R182). Operands are read before any write, and VF is
written before Vx (R170). -/

namespace Sys2Proof.Machine

/-- `6xkk` (R171). -/
def execLdImm (x : Reg) (kk : Byte) (s : State) : Result := .next (s.setV x kk).advance

/-- `7xkk`: no flag (R172). -/
def execAddImm (x : Reg) (kk : Byte) (s : State) : Result := .next (s.setV x (s.getV x + kk)).advance

/-- `8xy0` (R173). -/
def execLdReg (x y : Reg) (s : State) : Result := .next (s.setV x (s.getV y)).advance

/-- `8xy1` (R174). -/
def execOrReg (x y : Reg) (s : State) : Result := .next (s.setV x (s.getV x ||| s.getV y)).advance

/-- `8xy2` (R175). -/
def execAndReg (x y : Reg) (s : State) : Result := .next (s.setV x (s.getV x &&& s.getV y)).advance

/-- `8xy3` (R176). -/
def execXorReg (x y : Reg) (s : State) : Result := .next (s.setV x (s.getV x ^^^ s.getV y)).advance

/-- `8xy4` (R177). -/
def execAddReg (x y : Reg) (s : State) : Result :=
  .next (s.setFlagThenV x (addCarry (s.getV x) (s.getV y)) (s.getV x + s.getV y)).advance

/-- `8xy5` (R178). -/
def execSubReg (x y : Reg) (s : State) : Result :=
  .next (s.setFlagThenV x (subFlag (s.getV x) (s.getV y)) (s.getV x - s.getV y)).advance

/-- `8xy6`; Vy is not read (R179). -/
def execShr (x _y : Reg) (s : State) : Result :=
  .next (s.setFlagThenV x (shrFlag (s.getV x)) (s.getV x >>> 1)).advance

/-- `8xy7` (R180). -/
def execSubnReg (x y : Reg) (s : State) : Result :=
  .next (s.setFlagThenV x (subFlag (s.getV y) (s.getV x)) (s.getV y - s.getV x)).advance

/-- `8xyE`; Vy is not read (R181). -/
def execShl (x _y : Reg) (s : State) : Result :=
  .next (s.setFlagThenV x (shlFlag (s.getV x)) (s.getV x <<< 1)).advance

/-- `Cxkk`: the port's random byte, masked (R182). -/
def execRnd (x : Reg) (kk : Byte) (s : State) : Result := .next (s.setV x (s.port.rnd &&& kk)).advance

end Sys2Proof.Machine
end

