-- ==== Sys2Proof/Decode.lean ====
section
/-! DEFINITION. Decoding and encoding (30_encoding.md). The decoder is the "explicit, total decode function" of R104, a match on the
nibbles of the word; the opcode map of R105 stands beside it as data (`opcodeMap`). `0nnn` under `SYS_0NNN = nop` is no row of
R105 and is handled by the engine (R108). -/

namespace Sys2Proof

/-- `{hi, lo}`: two bytes as one word, the first in bits 15..8 (R10, R70). -/
def wordOf (hi lo : Byte) : Word := hi ++ lo

/-! ### Fields (R101) -/

/-- `op[15:12]`, the opcode family. -/
def fieldTop (w : Word) : BitVec 4 := w.extractLsb' 12 4

/-- `x = op[11:8]`. -/
def fieldX (w : Word) : Reg := (w.extractLsb' 8 4).toFin

/-- `y = op[7:4]`. -/
def fieldY (w : Word) : Reg := (w.extractLsb' 4 4).toFin

/-- `n = op[3:0]`. -/
def fieldN (w : Word) : Fin 16 := (w.extractLsb' 0 4).toFin

/-- `kk = op[7:0]`. -/
def fieldKK (w : Word) : Byte := w.extractLsb' 0 8

/-- `nnn = op[11:0]`. -/
def fieldNNN (w : Word) : Addr12 := w.extractLsb' 0 12

/-! ### Decoding one word (R104, R105) -/

/-- Family 8: the sub-opcode is the low nibble. -/
def decodeArith (w : Word) : Option Instr :=
  match (fieldN w).val with
  | 0x0 => some (.ldReg (fieldX w) (fieldY w))
  | 0x1 => some (.orReg (fieldX w) (fieldY w))
  | 0x2 => some (.andReg (fieldX w) (fieldY w))
  | 0x3 => some (.xorReg (fieldX w) (fieldY w))
  | 0x4 => some (.addReg (fieldX w) (fieldY w))
  | 0x5 => some (.subReg (fieldX w) (fieldY w))
  | 0x6 => some (.shr (fieldX w) (fieldY w))
  | 0x7 => some (.subnReg (fieldX w) (fieldY w))
  | 0xE => some (.shl (fieldX w) (fieldY w))
  | _ => none

/-- Family F: the sub-opcode is the low byte. -/
def decodeMisc (w : Word) : Option Instr :=
  match (fieldKK w).toNat with
  | 0x07 => some (.ldVxDt (fieldX w))
  | 0x0A => some (.ldVxK (fieldX w))
  | 0x15 => some (.ldDtVx (fieldX w))
  | 0x18 => some (.ldStVx (fieldX w))
  | 0x1E => some (.addI (fieldX w))
  | 0x29 => some (.ldF (fieldX w))
  | 0x33 => some (.ldB (fieldX w))
  | 0x55 => some (.storeRegs (fieldX w))
  | 0x65 => some (.loadRegs (fieldX w))
  | _ => none

/-- The instruction of R105 whose row matches `w`; `none` is the illegal word of R107. -/
def decodeWord (w : Word) : Option Instr :=
  match (fieldTop w).toNat with
  | 0x0 => if w = 0x00E0 then some .cls else if w = 0x00EE then some .ret else none
  | 0x1 => some (.jp (fieldNNN w))
  | 0x2 => some (.call (fieldNNN w))
  | 0x3 => some (.seImm (fieldX w) (fieldKK w))
  | 0x4 => some (.sneImm (fieldX w) (fieldKK w))
  | 0x5 => if (fieldN w).val = 0 then some (.seReg (fieldX w) (fieldY w)) else none
  | 0x6 => some (.ldImm (fieldX w) (fieldKK w))
  | 0x7 => some (.addImm (fieldX w) (fieldKK w))
  | 0x8 => decodeArith w
  | 0x9 => if (fieldN w).val = 0 then some (.sneReg (fieldX w) (fieldY w)) else none
  | 0xA => some (.ldI (fieldNNN w))
  | 0xB => some (.jpV0 (fieldNNN w))
  | 0xC => some (.rnd (fieldX w) (fieldKK w))
  | 0xD => some (.drw (fieldX w) (fieldY w) (fieldN w))
  | 0xE => if fieldKK w = 0x9E then some (.skp (fieldX w)) else if fieldKK w = 0xA1 then some (.sknp (fieldX w)) else none
  | 0xF => decodeMisc w
  | _ => none

/-- Why a byte string decodes to no instruction. -/
inductive DecodeReject where
  /-- Fewer than two bytes are left (R100). -/
  | truncated
  /-- The word matches no row of R105 (R107). -/
  | illegalWord (w : Word)
  deriving DecidableEq, Repr

/-- The instruction at the head of a byte string, big-endian (R70, R100), and the bytes after it. -/
def decodeBytes : List Byte → Except DecodeReject (Instr × List Byte)
  | hi :: lo :: rest =>
    match decodeWord (wordOf hi lo) with
    | some i => .ok (i, rest)
    | none => .error (.illegalWord (wordOf hi lo))
  | _ => .error .truncated

/-! ### Encoding (R102) -/

/-- A register number as its 4-bit field. -/
def regField (x : Fin 16) : BitVec 4 := BitVec.ofFin x

/-- Format `NNN`. -/
def formatNNN (o : BitVec 4) (nnn : Addr12) : Word := o ++ nnn

/-- Format `XKK`. -/
def formatXKK (o : BitVec 4) (x : Reg) (kk : Byte) : Word := o ++ (regField x ++ kk : Addr12)

/-- Format `XY`, and format `XYN` where `f` is the row count. -/
def formatXY (o : BitVec 4) (x y : Reg) (f : BitVec 4) : Word := o ++ (regField x ++ (regField y ++ f : Byte) : Addr12)

/-- Format `X`: `f` is the sub-opcode byte. -/
def formatX (o : BitVec 4) (x : Reg) (f : Byte) : Word := o ++ (regField x ++ f : Addr12)

/-- The word of an instruction: its row's fixed nibbles and its operands in their fields (R102, R105). -/
def encode : Instr → Word
  | .cls => 0x00E0
  | .ret => 0x00EE
  | .jp nnn => formatNNN 0x1 nnn
  | .call nnn => formatNNN 0x2 nnn
  | .seImm x kk => formatXKK 0x3 x kk
  | .sneImm x kk => formatXKK 0x4 x kk
  | .seReg x y => formatXY 0x5 x y 0x0
  | .ldImm x kk => formatXKK 0x6 x kk
  | .addImm x kk => formatXKK 0x7 x kk
  | .ldReg x y => formatXY 0x8 x y 0x0
  | .orReg x y => formatXY 0x8 x y 0x1
  | .andReg x y => formatXY 0x8 x y 0x2
  | .xorReg x y => formatXY 0x8 x y 0x3
  | .addReg x y => formatXY 0x8 x y 0x4
  | .subReg x y => formatXY 0x8 x y 0x5
  | .shr x y => formatXY 0x8 x y 0x6
  | .subnReg x y => formatXY 0x8 x y 0x7
  | .shl x y => formatXY 0x8 x y 0xE
  | .sneReg x y => formatXY 0x9 x y 0x0
  | .ldI nnn => formatNNN 0xA nnn
  | .jpV0 nnn => formatNNN 0xB nnn
  | .rnd x kk => formatXKK 0xC x kk
  | .drw x y n => formatXY 0xD x y (regField n)
  | .skp x => formatX 0xE x 0x9E
  | .sknp x => formatX 0xE x 0xA1
  | .ldVxDt x => formatX 0xF x 0x07
  | .ldVxK x => formatX 0xF x 0x0A
  | .ldDtVx x => formatX 0xF x 0x15
  | .ldStVx x => formatX 0xF x 0x18
  | .addI x => formatX 0xF x 0x1E
  | .ldF x => formatX 0xF x 0x29
  | .ldB x => formatX 0xF x 0x33
  | .storeRegs x => formatX 0xF x 0x55
  | .loadRegs x => formatX 0xF x 0x65

/-- The two bytes of an instruction as memory holds them, high byte first (R70). -/
def encodeBytes (i : Instr) : List Byte := [(encode i).extractLsb' 8 8, (encode i).extractLsb' 0 8]

/-! ### The opcode map as data (R105) -/

/-- One row of R105: a word belongs to it when `w &&& mask = pattern`. -/
structure OpcodeRow where
  pattern : Word
  mask : Word
  deriving DecidableEq, Repr

def OpcodeRow.admits (r : OpcodeRow) (w : Word) : Prop := w &&& r.mask = r.pattern

/-- The 34 rows of R105, in its order. -/
def opcodeMap : List OpcodeRow :=
  [⟨0x00E0, 0xFFFF⟩, ⟨0x00EE, 0xFFFF⟩, ⟨0x1000, 0xF000⟩, ⟨0x2000, 0xF000⟩, ⟨0x3000, 0xF000⟩, ⟨0x4000, 0xF000⟩]
  ++ [⟨0x5000, 0xF00F⟩, ⟨0x6000, 0xF000⟩, ⟨0x7000, 0xF000⟩]
  ++ [⟨0x8000, 0xF00F⟩, ⟨0x8001, 0xF00F⟩, ⟨0x8002, 0xF00F⟩, ⟨0x8003, 0xF00F⟩, ⟨0x8004, 0xF00F⟩, ⟨0x8005, 0xF00F⟩,
      ⟨0x8006, 0xF00F⟩, ⟨0x8007, 0xF00F⟩, ⟨0x800E, 0xF00F⟩]
  ++ [⟨0x9000, 0xF00F⟩, ⟨0xA000, 0xF000⟩, ⟨0xB000, 0xF000⟩, ⟨0xC000, 0xF000⟩, ⟨0xD000, 0xF000⟩]
  ++ [⟨0xE09E, 0xF0FF⟩, ⟨0xE0A1, 0xF0FF⟩]
  ++ [⟨0xF007, 0xF0FF⟩, ⟨0xF00A, 0xF0FF⟩, ⟨0xF015, 0xF0FF⟩, ⟨0xF018, 0xF0FF⟩, ⟨0xF01E, 0xF0FF⟩, ⟨0xF029, 0xF0FF⟩,
      ⟨0xF033, 0xF0FF⟩, ⟨0xF055, 0xF0FF⟩, ⟨0xF065, 0xF0FF⟩]

/-- The position of an instruction's row in `opcodeMap` (R105's number, less one). -/
def Instr.rowNumber : Instr → Fin 34
  | .cls => 0 | .ret => 1 | .jp _ => 2 | .call _ => 3 | .seImm _ _ => 4 | .sneImm _ _ => 5 | .seReg _ _ => 6
  | .ldImm _ _ => 7 | .addImm _ _ => 8 | .ldReg _ _ => 9 | .orReg _ _ => 10 | .andReg _ _ => 11 | .xorReg _ _ => 12
  | .addReg _ _ => 13 | .subReg _ _ => 14 | .shr _ _ => 15 | .subnReg _ _ => 16 | .shl _ _ => 17 | .sneReg _ _ => 18
  | .ldI _ => 19 | .jpV0 _ => 20 | .rnd _ _ => 21 | .drw _ _ _ => 22 | .skp _ => 23 | .sknp _ => 24 | .ldVxDt _ => 25
  | .ldVxK _ => 26 | .ldDtVx _ => 27 | .ldStVx _ => 28 | .addI _ => 29 | .ldF _ => 30 | .ldB _ => 31 | .storeRegs _ => 32
  | .loadRegs _ => 33

/-- The row of R105 that an instruction belongs to. -/
def Instr.row (i : Instr) : OpcodeRow := opcodeMap[i.rowNumber]

/-! ### The opcode table's numbering -/

/-- The instruction that the decoder reads from an instruction whose bits are `w`, bit 0 the least significant bit of its one
word (R9); bits from `nbits` up are 0. The word is laid out big-endian (R70) before it is decoded. -/
def decodeTableWord (nbits w : Nat) : Option Instr :=
  let op : Word := BitVec.ofNat 16 (w % 2 ^ nbits)
  match decodeBytes [op.extractLsb' 8 8, op.extractLsb' 0 8] with
  | .ok (i, _) => some i
  | .error _ => none

end Sys2Proof
end

