-- ==== Sys2Proof/Machine/ControlFlow.lean ====
section
/-! DEFINITION. Return, jumps, call and skips (41_control_flow.md R150 to R157). -/

namespace Sys2Proof.Machine

/-- `00EE` (R150). -/
def execRet (s : State) : Result := .next (s.popJump (encode .ret))

/-- `1nnn` (R151). -/
def execJp (nnn : Addr12) (s : State) : Result := .next (s.jump (addrWord nnn))

/-- `2nnn`: pushes its own address (R152). -/
def execCall (nnn : Addr12) (s : State) : Result := .next (s.pushJump (encode (.call nnn)) s.pc (addrWord nnn))

/-- `3xkk` (R153). -/
def execSeImm (x : Reg) (kk : Byte) (s : State) : Result := .next (s.skipIf (s.getV x == kk))

/-- `4xkk` (R154). -/
def execSneImm (x : Reg) (kk : Byte) (s : State) : Result := .next (s.skipIf (s.getV x != kk))

/-- `5xy0` (R155). -/
def execSeReg (x y : Reg) (s : State) : Result := .next (s.skipIf (s.getV x == s.getV y))

/-- `9xy0` (R156). -/
def execSneReg (x y : Reg) (s : State) : Result := .next (s.skipIf (s.getV x != s.getV y))

/-- `Bnnn`: `nnn + V0`, not reduced modulo 4096 (R157). -/
def execJpV0 (nnn : Addr12) (s : State) : Result := .next (s.jump (addrWord nnn + (s.getV 0).setWidth 16))

end Sys2Proof.Machine
end

