-- ==== Sys2Proof/Machine/DisplayInstrs.lean ====
section
/-! DEFINITION. The display instructions (44_display.md R215, R216). -/

namespace Sys2Proof.Machine

/-- `00E0` (R215). -/
def execCls (s : State) : Result := .next s.clearDisplay.advance

/-- `Dxyn`: the coordinates and the rows are read before VF is written (R216). -/
def execDrw (x y : Reg) (n : Fin 16) (s : State) : Result :=
  .next (s.withRange (encode (.drw x y n)) n.val (s.draw (s.drawCalls x y n)).advance)

end Sys2Proof.Machine
end

