-- ==== Sys2Proof/Machine/IndexMemory.lean ====
section
/-! DEFINITION. The index register and the memory instructions (43_index_memory.md R190 to R196). None of them but the writes to I
changes I. -/

namespace Sys2Proof.Machine

/-- `Annn` (R191). -/
def execLdI (nnn : Addr12) (s : State) : Result := .next { s with i := addrWord nnn }.advance

/-- `Fx1E`, modulo 2^16 (R192). -/
def execAddI (x : Reg) (s : State) : Result := .next { s with i := s.i + (s.getV x).setWidth 16 }.advance

/-- `Fx29`: Vx is not reduced to its low nibble (R193). -/
def execLdF (x : Reg) (s : State) : Result := .next { s with i := (s.getV x).setWidth 16 * 5 }.advance

/-- `Fx33` (R194). -/
def execLdB (x : Reg) (s : State) : Result :=
  .next (s.withRange (encode (.ldB x)) 3 (s.storeBytes s.base (decimalDigits (s.getV x))).advance)

/-- `Fx55` (R195). -/
def execStoreRegs (x : Reg) (s : State) : Result :=
  .next (s.withRange (encode (.storeRegs x)) (x.val + 1) (s.storeBytes s.base (s.regsThrough x)).advance)

/-- `Fx65` (R196). -/
def execLoadRegs (x : Reg) (s : State) : Result :=
  .next (s.withRange (encode (.loadRegs x)) (x.val + 1) (s.loadThrough x).advance)

end Sys2Proof.Machine
end

