-- ==== Sys2Proof/Machine/KeysTimers.lean ====
section
/-! DEFINITION. The key and timer instructions (45_keys_timers.md R231 to R239). -/

namespace Sys2Proof.Machine

/-- `Ex9E` (R231, R233). -/
def execSkp (x : Reg) (s : State) : Result :=
  .next (match s.keyPressed (s.getV x) with
    | some p => s.skipIf p
    | none => s.raise (.ubStop s.pc (some (encode (.skp x))) (.keyIndex (s.getV x))))

/-- `ExA1` (R232, R233). -/
def execSknp (x : Reg) (s : State) : Result :=
  .next (match s.keyPressed (s.getV x) with
    | some p => s.skipIf !p
    | none => s.raise (.ubStop s.pc (some (encode (.sknp x))) (.keyIndex (s.getV x))))

/-- `Fx07` (R234). -/
def execLdVxDt (x : Reg) (s : State) : Result := .next (s.setV x s.dt).advance

/-- `Fx0A`: the wait begins; V[x] and PC keep their values until a key press (R235, `State.press`). -/
def execLdVxK (x : Reg) (s : State) : Result := .next { s with status := .waitKey x }

/-- `Fx15` (R238). -/
def execLdDtVx (x : Reg) (s : State) : Result := .next { s with dt := s.getV x }.advance

/-- `Fx18` (R239). -/
def execLdStVx (x : Reg) (s : State) : Result := .next { s with st := s.getV x }.advance

end Sys2Proof.Machine
end

