-- ==== Sys2Proof/Machine/Engine.lean ====
section
/-! DEFINITION. The step engine (40_engine.md R131 to R142) and the host's events (60_exceptions.md R264, R265; 45_keys_timers.md R236,
R237; 44_display.md R214; 70_reset_and_hazards.md R280 to R284). -/

namespace Sys2Proof.Machine

/-! ### The step (R131) -/

/-- The host's clock is monotonic: a step never sees a `now` below the latest one (R130; log entry 7). -/
def State.latch (s : State) (inp : StepInput) : State :=
  { s with port := { inp with now := max s.port.now inp.now } }

/-- `Fetch(PC)`, big-endian, or the error of a fetch that leaves memory under `MEM_OOB = fault`, which carries no word (R132, R72). -/
def State.fetch (s : State) : Except Error Word :=
  match s.rangeFault s.pc.toNat 2 with
  | some a => .error (.ubStop s.pc none (.memoryRange a))
  | none => .ok (wordOf (s.readByte s.pc.toNat) (s.readByte (s.pc.toNat + 1)))

/-- A word that matches no row of R105: `SYS nnn` where `SYS_0NNN = nop` makes it an instruction (R108b), else a decode error
(R133, R250). -/
def State.illegal (s : State) (op : Word) : State :=
  if s.cfg.sys = .nop ∧ fieldTop op = 0 then s.advance else s.raise (.decodeError s.pc op)

/-- Phases (2) to (5): fetch, decode, execute, advance. -/
def State.fetchExec (s : State) : Result :=
  match s.fetch with
  | .error e => .next (s.raise e)
  | .ok op =>
    match decodeWord op with
    | some i => exec i s
    | none => .next (s.illegal op)

/-- `step(now, rnd, keys)`: enabled in `Running` only, and without effect elsewhere (R131, R141, R264). -/
def State.runStep (s : State) (inp : StepInput) : Result :=
  match s.status with
  | .running => (s.latch inp).timerUpdate.fetchExec
  | _ => .next s

/-! ### The host's events (R264) -/

/-- `press(k)`: completes a waiting `Fx0A`; without effect elsewhere (R236, R264). -/
def State.press (s : State) (k : Key) : State :=
  match s.status with
  | .waitKey x => { (s.setV x (BitVec.ofNat 8 k.val)).advance with status := .running }
  | _ => s

/-- `cancel`: stops a running or waiting core; without effect elsewhere (R237, R265). -/
def State.cancel (s : State) : State :=
  match s.status with
  | .running => { s with status := .stopped }
  | .waitKey _ => { s with status := .stopped }
  | _ => s

/-- `drain`, in any status (R214, R264). -/
def State.drain (s : State) : State := { s with disp := s.disp.drain }

/-- `load(rom)` with `T0 = t0`: a new core with the ROM at 0x200, or the load error (R280, R282). -/
def loadRom (cfg : Config) (t0 : Nat) (rom : List Byte) : Except Fault State :=
  if rom.length ≤ romMax then .ok (State.fresh cfg t0 (Memory.image cfg.font programBase rom))
  else .error (.romTooLarge rom.length)

/-- The load error's code (R252). -/
def Fault.code : Fault → Nat
  | .romTooLarge _ => 6

/-- `load` as a host event: it discards a stopped or halted core and makes a new one (R284); a running or waiting core must be
cancelled first, so there it has no effect (R264, R284; log entry 11). The host's pending events and the count of drawn inputs
are the host's, not the core's, and go on. -/
def State.reload (s : State) (t0 : Nat) (rom : List Byte) : Result :=
  match s.status with
  | .running => .next s
  | .waitKey _ => .next s
  | .halted _ | .stopped =>
    match loadRom s.cfg t0 rom with
    | .ok t => .next { t with host := s.host, draws := s.draws }
    | .error f => .fault f

/-- One host event (R264). -/
def State.deliver (s : State) : HostEvent → Result
  | .step inp => s.runStep inp
  | .press k => .next (s.press k)
  | .cancel => .next s.cancel
  | .drain => .next s.drain
  | .load t0 rom => s.reload t0 rom

/-- With no event pending the host goes on calling `step` with freely drawn inputs (R14, R130); a core that is not running then stays
as it is (R141). -/
def State.freeStep (s : State) : Result :=
  match s.status with
  | .running => State.runStep { s with draws := s.draws + 1 } (Config.freeInput s.draws)
  | _ => .next s

/-- The host's next pending event, or a step with free inputs (log entry 6). -/
def State.nextEvent (s : State) : Result :=
  match s.host with
  | e :: es => State.deliver { s with host := es } e
  | [] => s.freeStep

/-! ### Placing an instruction where the next step fetches it -/

/-- Whether an event is a request for a step. -/
def HostEvent.isStep : HostEvent → Bool
  | .step _ => true
  | _ => false

/-- The state with the word `op` at PC, running, and no other event due before the next step. -/
def State.placeWord (s : State) (op : Word) : State :=
  { s.storeBytes s.pc.toNat [op.extractLsb' 8 8, op.extractLsb' 0 8] with
    status := .running
    host := s.host.dropWhile fun e => !e.isStep }

end Sys2Proof.Machine
end

