-- ==== Sys2Proof/Machine/Step.lean ====
section
/-! DEFINITION. One step of the machine: one host event of 60_exceptions.md R264, which is a `step` of 40_engine.md R131 unless the
host has another event pending. Everything it does is in Machine/Engine.lean. -/

namespace Sys2Proof.Machine

def step (s : State) : Host.Outcome State Fault Refusal := s.nextEvent

/-- `s` with the instruction whose bits are `w` (bits from `nbits` up are 0) stored big-endian at PC, where `step` fetches next. -/
def State.withFetchWord (s : State) (nbits w : Nat) : State := s.placeWord (BitVec.ofNat 16 (w % 2 ^ nbits))

end Sys2Proof.Machine
end

