-- ==== Sys2Proof/WellFormed.lean ====
section
/-! DEFINITION. The checks on what is given to the machine from outside. An instruction needs none: each operand's type is exactly
its field (Syntax.lean), so every term of `Instr` is well-formed. What can be ill-formed is a parameter, a ROM and a step input. -/

namespace Sys2Proof

/-- `TICK_PERIOD_MS` is a positive rational (R8). -/
def Config.wf (c : Config) : Bool := decide (0 < c.tickNum) && decide (0 < c.tickDen)

/-- A ROM that `load` accepts: at most 3584 bytes (R282). -/
def romWf (rom : List Byte) : Bool := decide (rom.length ≤ romMax)

/-- A visiting order of `clear` names no pixel twice (R212, R219). -/
def StepInput.wf (inp : StepInput) : Bool := decide inp.clearOrder.Nodup

end Sys2Proof
end

