-- ==== Sys2Proof/Safety.lean ====
section
/-! DEFINITION. The terms in which claims are stated: what a step leaves unchanged, which parts and registers each instruction may
write (10_state.md R33, R34, R39, R41, R45, R49; 20_memory.md R71), what makes a run safe, the invariant that every step keeps, and
what a program cannot observe (R54). -/

namespace Sys2Proof.Machine

/-! ### Frames -/

/-- The parts of the state that a frame speaks of. `boundary` is what is not the core's: parameters, port, pending events, draws. -/
inductive Part where
  | v | i | pc | stack | dt | st | mem | disp | tickRef | status | boundary
  deriving DecidableEq, Repr

/-- The part reads the same in both states; memory, at every address (R72a). -/
def Part.same (s t : State) : Part → Prop
  | .v => ∀ r, t.getV r = s.getV r
  | .i => t.i = s.i
  | .pc => t.pc = s.pc
  | .stack => t.sp = s.sp ∧ t.stack = s.stack
  | .dt => t.dt = s.dt
  | .st => t.st = s.st
  | .mem => ∀ a, t.readByte a = s.readByte a
  | .disp => t.disp = s.disp
  | .tickRef => t.tickRef = s.tickRef
  | .status => t.status = s.status
  | .boundary => t.cfg = s.cfg ∧ t.port = s.port ∧ t.host = s.host ∧ t.draws = s.draws

/-- Every part not listed is the same. -/
def SameExcept (ps : List Part) (s t : State) : Prop := ∀ p, p ∉ ps → p.same s t

/-- The parts that an instruction may write. -/
def writtenParts : Instr → List Part
  | .cls => [.pc, .disp]
  | .ret | .call _ => [.pc, .stack, .status]
  | .jp _ | .jpV0 _ | .seImm _ _ | .sneImm _ _ | .seReg _ _ | .sneReg _ _ => [.pc]
  | .skp _ | .sknp _ => [.pc, .status]
  | .ldImm _ _ | .addImm _ _ | .ldReg _ _ | .orReg _ _ | .andReg _ _ | .xorReg _ _ | .addReg _ _ | .subReg _ _
  | .shr _ _ | .subnReg _ _ | .shl _ _ | .rnd _ _ | .ldVxDt _ => [.v, .pc]
  | .ldI _ | .addI _ | .ldF _ => [.i, .pc]
  | .drw _ _ _ => [.v, .pc, .disp, .status]
  | .ldVxK _ => [.status]
  | .ldDtVx _ => [.dt, .pc]
  | .ldStVx _ => [.st, .pc]
  | .ldB _ | .storeRegs _ => [.mem, .pc, .status]
  | .loadRegs _ => [.v, .pc, .status]

/-- The registers that an instruction may write (the table of R34). -/
def writtenRegs : Instr → List Reg
  | .ldImm x _ | .addImm x _ | .ldReg x _ | .orReg x _ | .andReg x _ | .xorReg x _ | .rnd x _ | .ldVxDt x => [x]
  | .addReg x _ | .subReg x _ | .shr x _ | .subnReg x _ | .shl x _ => [flagReg, x]
  | .drw _ _ _ => [flagReg]
  | .loadRegs x => (List.finRange 16).filter fun k => decide (k ≤ x)
  | .cls | .ret | .jp _ | .call _ | .seImm _ _ | .sneImm _ _ | .seReg _ _ | .sneReg _ _ | .ldI _ | .jpV0 _ | .skp _
  | .sknp _ | .ldVxK _ | .ldDtVx _ | .ldStVx _ | .addI _ | .ldF _ | .ldB _ | .storeRegs _ => []

/-- How many bytes an instruction accesses at I upward (R74). -/
def dataBytes : Instr → Nat
  | .drw _ _ n => n.val
  | .ldB _ => 3
  | .storeRegs x | .loadRegs x => x.val + 1
  | .cls | .ret | .jp _ | .call _ | .seImm _ _ | .sneImm _ _ | .seReg _ _ | .ldImm _ _ | .addImm _ _ | .ldReg _ _
  | .orReg _ _ | .andReg _ _ | .xorReg _ _ | .addReg _ _ | .subReg _ _ | .shr _ _ | .subnReg _ _ | .shl _ _
  | .sneReg _ _ | .ldI _ | .jpV0 _ | .rnd _ _ | .skp _ | .sknp _ | .ldVxDt _ | .ldVxK _ | .ldDtVx _ | .ldStVx _
  | .addI _ | .ldF _ => 0

/-- An access of `len` bytes from address `a` upward that no parameter refuses (R72). -/
def State.Accessible (s : State) (a len : Nat) : Prop := s.cfg.memOob = .wrap ∨ len = 0 ∨ a + len ≤ 4096

/-- An access that `MEM_OOB = fault` refuses, with `b` the lowest address of 4096 or more in its range (R72b). -/
def State.OutOfRange (s : State) (a len b : Nat) : Prop :=
  s.cfg.memOob = .fault ∧ 4096 ≤ b ∧ a ≤ b ∧ b < a + len ∧ ∀ c, 4096 ≤ c → a ≤ c → b ≤ c

/-- A 1-bit of the sprite of `Dxyn` falls on the pixel: row r is the byte at I + r, bit 7 − j is drawn at column Vx + j, row Vy + r,
each axis wrapped by its own extent (R211, R216, R217). -/
def State.SpriteCovers (s : State) (x y : Reg) (n : Fin 16) (a : Col) (b : Row) : Prop :=
  ∃ r j, r < n.val ∧ j < 8 ∧ (s.readByte (s.i.toNat + r)).getLsbD (7 - j) = true ∧
    a.val = ((s.getV x).toNat + j) % 64 ∧ b.val = ((s.getV y).toNat + r) % 32

/-! ### Instructions and steps -/

/-- The instruction's encoding: its word has the row's fixed nibbles and decodes to it, operands included (R102, R105). -/
def HasEncoding (i : Instr) (pattern mask : Word) : Prop := encode i &&& mask = pattern ∧ decodeWord (encode i) = some i

/-- A fatal error stops the core and changes nothing else (R142, R253, R258). -/
def State.StopsWith (s : State) (e : Error) : State := { s with status := .halted e }

/-- Where its access leaves memory under `MEM_OOB = fault`, the instruction stops before its first access (R72b, R190). -/
def StopsOutOfRange (i : Instr) (s : State) : Prop :=
  ∀ b, s.OutOfRange s.i.toNat (dataBytes i) b →
    exec i s = .next (s.StopsWith (.ubStop s.pc (some (encode i)) (.memoryRange b)))

/-- The next step of the machine is a `step` of the core, with the host's next `step` event or with free inputs, and `u` is the
state after its timer update, where it fetches (R130, R131). -/
def State.BeginsStep (s u : State) : Prop :=
  s.status = .running ∧
    ((∃ inp es, s.host = .step inp :: es ∧ u = (State.latch { s with host := es } inp).timerUpdate) ∨
      (s.host = [] ∧ u = (State.latch { s with draws := s.draws + 1 } (Config.freeInput s.draws)).timerUpdate))

/-- The host's next event is a `load`. -/
def State.LoadIsNext (s : State) : Prop := ∃ t0 rom es, s.host = .load t0 rom :: es

/-- Every state element of the spec at its value after a load with `T0 = t0` (R53, R280): the font at 0x000, the ROM at 0x200, zero in
every other byte and register. -/
structure State.HasLoadValues (s : State) (t0 : Nat) (rom : List Byte) : Prop where
  v : ∀ r, s.getV r = 0
  i : s.i = 0
  pc : s.pc = 0x200
  sp : s.sp.val = 0
  stack : ∀ k : Fin 16, s.stack[k] = 0
  dt : s.dt = 0
  st : s.st = 0
  display : ∀ a b, s.disp.pix.at a b = false ∧ s.disp.dirty.at a b = false
  tickRef : s.tickRef = t0
  status : s.status = .running
  fontBytes : ∀ (d : Fin 16) (k : Fin 5), s.readByte (5 * d.val + k.val) = s.cfg.font[d][k]
  zeroBelow : ∀ a, 80 ≤ a → a < 0x200 → s.readByte a = 0
  romBytes : ∀ k, (h : k < rom.length) → s.readByte (0x200 + k) = rom[k]
  zeroAbove : ∀ a, 0x200 + rom.length ≤ a → a < 4096 → s.readByte a = 0

/-! ### Safe runs -/

/-- The core has not stopped on an error (R47). -/
def State.NotHalted (s : State) : Prop := ∀ e, s.status ≠ .halted e

/-- The word at PC, without any check (R132 under `MEM_OOB = wrap`). -/
def State.wordAtPc (s : State) : Word := wordOf (s.readByte s.pc.toNat) (s.readByte (s.pc.toNat + 1))

/-- The error's record is true of the state that holds it: PC still holds the raising instruction's address, the recorded word is
the word there, and the cause stands (R132, R233, R250, R251, R253, R254). -/
def Error.TrueOf (s : State) : Error → Prop
  | .decodeError pc op => pc = s.pc ∧ op = s.wordAtPc ∧ decodeWord op = none ∧ (s.cfg.sys = .nop → fieldTop op ≠ 0)
  | .stackFault pc op .overflow => pc = s.pc ∧ op = s.wordAtPc ∧ s.sp.val = 16 ∧ ∃ nnn, decodeWord op = some (.call nnn)
  | .stackFault pc op .underflow => pc = s.pc ∧ op = s.wordAtPc ∧ s.sp.val = 0 ∧ decodeWord op = some .ret
  | .ubStop pc none (.memoryRange a) => pc = s.pc ∧ s.OutOfRange s.pc.toNat 2 a
  | .ubStop pc (some op) (.memoryRange a) =>
    pc = s.pc ∧ op = s.wordAtPc ∧ ∃ i, decodeWord op = some i ∧ s.OutOfRange s.i.toNat (dataBytes i) a
  | .ubStop pc (some op) (.keyIndex k) =>
    pc = s.pc ∧ op = s.wordAtPc ∧ s.cfg.keyOor = .ubStop ∧ 16 ≤ k.toNat ∧
      ∃ x, (decodeWord op = some (.skp x) ∨ decodeWord op = some (.sknp x)) ∧ k = s.getV x
  | .ubStop _ none (.keyIndex _) => False

/-- What every step keeps: memory is canonical, the last tick lies not after the host's clock (R130, R134), a waiting core stands
at its `Fx0A` (R47, R235), and a halted core's record is true (R253). -/
structure State.Inv (s : State) : Prop where
  memCanonical : s.mem.wf s.cfg.font = true
  tickNotAhead : s.tickRef ≤ s.port.now
  waitAtItsInstruction : ∀ x, s.status = .waitKey x → decodeWord s.wordAtPc = some (.ldVxK x)
  haltedRecordTrue : ∀ e, s.status = .halted e → e.TrueOf s

/-! ### What a program cannot observe (R44, R45, R54) -/

/-- The state with its dirty bits and the drained stream blanked. -/
def State.hideDirty (s : State) : State := { s with disp := { s.disp with dirty := Grid.blank, out := [] } }

/-- The state with ST blanked. -/
def State.hideSt (s : State) : State := { s with st := 0 }

/-- The state with every stack entry at index SP or above blanked. -/
def State.hideDeadStack (s : State) : State :=
  { s with stack := Vector.ofFn fun k : Fin 16 => if k.val < s.sp.val then s.stack[k] else 0 }

/-- Two outcomes that look the same through `hide`. -/
def SameOutcome (hide : State → State) : Result → Result → Prop
  | .next s, .next t => hide s = hide t
  | .fault f, .fault g => f = g
  | .refused r, .refused q => r = q
  | _, _ => False

end Sys2Proof.Machine
end

