-- ==== Sys2Proof/Certificates/Slice0/Obligations.lean ====
section
/-! DEFINITION. The statements for the provers. Every one is about the machine, for all states and operands; none is about a program. -/

open Sys2Proof Sys2Proof.Machine

/-! ### Encoding (30_encoding.md) -/

/-- Decoding the encoding of any instruction gives it back, with every operand at every value, and leaves the bytes after it. -/
def Obligations.DecodeInvertsEncode : Prop :=
  ∀ (i : Instr) (rest : List Byte), decodeBytes (encodeBytes i ++ rest) = .ok (i, rest)

/-- A word that decodes is the encoding of what it decodes to: every bit of an instruction word is an operand or fixed. -/
def Obligations.EncodeInvertsDecode : Prop :=
  ∀ (w : Word) (i : Instr), decodeWord w = some i → encode i = w

/-- R104: no word matches two rows of the opcode map, and the decoder answers the instruction of the row that matches. -/
def Obligations.OpcodeRowsPartitionTheWords : Prop :=
  ∀ w : Word,
    (∀ m n : Fin 34, opcodeMap[m].admits w → opcodeMap[n].admits w → m = n) ∧
    (∀ i, decodeWord w = some i → opcodeMap[i.rowNumber].admits w) ∧
    (∀ n : Fin 34, opcodeMap[n].admits w → ∃ i, decodeWord w = some i ∧ i.rowNumber = n)

/-- The table of R107: exactly which words are illegal, by top nibble. -/
def Obligations.IllegalWordsByTopNibble : Prop :=
  ∀ w : Word, decodeWord w = none ↔
    (w.toNat / 4096 = 0x0 ∧ w ≠ 0x00E0 ∧ w ≠ 0x00EE) ∨
    (w.toNat / 4096 = 0x5 ∧ w.toNat % 16 ≠ 0) ∨
    (w.toNat / 4096 = 0x8 ∧ w.toNat % 16 ∈ [0x8, 0x9, 0xA, 0xB, 0xC, 0xD, 0xF]) ∨
    (w.toNat / 4096 = 0x9 ∧ w.toNat % 16 ≠ 0) ∨
    (w.toNat / 4096 = 0xE ∧ w.toNat % 256 ∉ [0x9E, 0xA1]) ∨
    (w.toNat / 4096 = 0xF ∧ w.toNat % 256 ∉ [0x07, 0x0A, 0x15, 0x18, 0x1E, 0x29, 0x33, 0x55, 0x65])

/-- Words written out from the rows of R105, one per format or family. -/
def Obligations.WrittenOutWordsDecode : Prop :=
  decodeWord 0x00E0 = some .cls ∧ decodeWord 0x1234 = some (.jp 0x234) ∧ decodeWord 0x3312 = some (.seImm 3 0x12) ∧
  decodeWord 0x8F1E = some (.shl 15 1) ∧ decodeWord 0xA2F0 = some (.ldI 0x2F0) ∧ decodeWord 0xD0A5 = some (.drw 0 10 5) ∧
  decodeWord 0xE59E = some (.skp 5) ∧ decodeWord 0xFC65 = some (.loadRegs 12) ∧ decodeWord 0x5121 = none ∧
  decodeWord 0x0000 = none

/-! ### The step (40_engine.md) -/

/-- A step of a running core runs the instruction that the bytes at PC decode to, after the timer update, which changes nothing but
the timers and what stands at the core's boundary. -/
def Obligations.StepRunsTheDecodedInstruction : Prop :=
  ∀ (s u : State) (i : Instr), s.BeginsStep u → s.Accessible s.pc.toNat 2 → decodeWord s.wordAtPc = some i →
    SameExcept [.dt, .st, .tickRef, .boundary] s u ∧ u.cfg = s.cfg ∧ step s = exec i u

/-- The word placed by `withFetchWord` is the one the next step fetches, and the core is running (the model's stand-in for a load from
outside, log entries 1 and 15). -/
def Obligations.PlacedWordIsFetchedNext : Prop :=
  ∀ (s : State) (nbits w : Nat), s.Accessible s.pc.toNat 2 →
    (s.withFetchWord nbits w).fetch = .ok (BitVec.ofNat 16 (w % 2 ^ nbits)) ∧
    ∃ u, (s.withFetchWord nbits w).BeginsStep u

/-- R133 and R108: a word that matches no row halts the core with its record, code 1, after the timer update alone; under
`SYS_0NNN = nop`, `0nnn` instead changes nothing but PC. `00E0` and `00EE` are instructions under both. The parameter and the code
are the spec's own choices (D5, D17). -/
def Obligations.UnmatchedWordHaltsOrIsSys : Prop :=
  decodeWord 0x00E0 = some .cls ∧ decodeWord 0x00EE = some .ret ∧
  ∀ s u : State, s.BeginsStep u → s.Accessible s.pc.toNat 2 → decodeWord s.wordAtPc = none →
    (s.cfg.sys = .nop → s.wordAtPc.toNat < 4096 → step s = .next { u with pc := s.pc + 2 }) ∧
    (s.cfg.sys = .decodeError ∨ 4096 ≤ s.wordAtPc.toNat →
      step s = .next (u.StopsWith (.decodeError s.pc s.wordAtPc)) ∧ (Error.decodeError s.pc s.wordAtPc).code = 1)

/-- R132: fetch is big-endian from PC and PC + 1, wrapping under `MEM_OOB = wrap`; under `fault` a fetch at PC ≥ 0x0FFF stops the core
with a record that carries no word, and changes nothing else. The wrap, and the address recorded under `fault`, are the spec's own
choice (R72, D1), the record D17's. -/
def Obligations.FetchWrapsOrStops : Prop :=
  (∀ s : State, s.cfg.memOob = .wrap → ∃ op, s.fetch = .ok op ∧
    op.toNat = 256 * (s.mem.read s.cfg.font (s.pc.toNat % 4096)).toNat
      + (s.mem.read s.cfg.font ((s.pc + 1).toNat % 4096)).toNat) ∧
  (∀ s : State, s.cfg.memOob = .fault → s.pc.toNat < 0x0FFF → ∃ op, s.fetch = .ok op ∧
    op.toNat = 256 * (s.mem.read s.cfg.font s.pc.toNat).toNat + (s.mem.read s.cfg.font (s.pc.toNat + 1)).toNat) ∧
  (∀ s u : State, s.BeginsStep u → s.cfg.memOob = .fault → 0x0FFF ≤ s.pc.toNat →
    ∃ a, s.OutOfRange s.pc.toNat 2 a ∧ step s = .next (u.StopsWith (.ubStop s.pc none (.memoryRange a))))

/-- R134: every step begins with the timer update and goes on from there to fetch. Once `TICK_PERIOD_MS` has passed since the last
tick, DT and ST each go down by 1 if above 0 and the tick reference becomes `now`; otherwise all three stay. At the default period the
test is `3·(now − tickRef) ≥ 50` (the spec's inference from R134; that the reference becomes `now` is its choice D7). -/
def Obligations.TimerUpdateOpensEveryStep : Prop :=
  ∀ s u : State, s.cfg.wf = true → s.BeginsStep u →
    step s = u.fetchExec ∧
    ((s.cfg.tickNum : ℚ) / s.cfg.tickDen ≤ (u.port.now : ℚ) - s.tickRef →
      u.dt.toNat = s.dt.toNat - 1 ∧ u.st.toNat = s.st.toNat - 1 ∧ u.tickRef = u.port.now) ∧
    ((u.port.now : ℚ) - s.tickRef < (s.cfg.tickNum : ℚ) / s.cfg.tickDen →
      u.dt = s.dt ∧ u.st = s.st ∧ u.tickRef = s.tickRef) ∧
    (s.cfg.tickNum = 50 → s.cfg.tickDen = 3 →
      ((s.cfg.tickNum : ℚ) / s.cfg.tickDen ≤ (u.port.now : ℚ) - s.tickRef ↔
        50 ≤ 3 * ((u.port.now : ℤ) - s.tickRef)))

/-- R135: over any step of the machine that is no load and executes neither `Fx15` nor `Fx18`, each timer stays or goes down by 1. -/
def Obligations.TimersFallByAtMostOnePerStep : Prop :=
  ∀ s t : State, step s = .next t → ¬ s.LoadIsNext →
    ((∀ x, decodeWord s.wordAtPc ≠ some (.ldDtVx x)) → t.dt.toNat ≤ s.dt.toNat ∧ s.dt.toNat ≤ t.dt.toNat + 1) ∧
    ((∀ x, decodeWord s.wordAtPc ≠ some (.ldStVx x)) → t.st.toNat ≤ s.st.toNat ∧ s.st.toNat ≤ t.st.toNat + 1)

/-- R141: no step is enabled outside `Running`. A waiting core leaves the wait by a key press or a cancellation alone; a halted or
stopped core has no transition but a load of a new core; a drain there touches dirty bits and the drained stream alone. -/
def Obligations.NoStepOutsideRunning : Prop :=
  (∀ (s : State) (inp : StepInput) (es : List HostEvent), s.status ≠ .running → s.host = .step inp :: es →
    step s = .next { s with host := es }) ∧
  (∀ (s t : State) (x : Reg), s.status = .waitKey x → step s = .next t →
    t.status = .waitKey x ∨ (∃ k es, s.host = .press k :: es ∧ t.status = .running) ∨
      (∃ es, s.host = .cancel :: es ∧ t.status = .stopped)) ∧
  (∀ s t : State, (s.status = .stopped ∨ ∃ e, s.status = .halted e) → ¬ s.LoadIsNext → step s = .next t →
    SameExcept [.disp, .boundary] s t ∧ t.disp.pix = s.disp.pix ∧ ((∃ es, s.host = .drain :: es) ∨ t.disp = s.disp))

/-- R142, R253: a step that raises writes nothing but its timer update and the status; the record is true of the state it leaves: PC
still holds the raising instruction's address, and the cause stands (what is recorded is the spec's own choice, D17). -/
def Obligations.RaisingStepChangesNothingElse : Prop :=
  ∀ (s u t : State) (e : Error), s.BeginsStep u → step s = .next t → t.status = .halted e →
    t = u.StopsWith e ∧ e.TrueOf t

/-- R251: a push at SP = 16 and a pop at SP = 0 raise the stack fault with its record (the spec's own choice, D17), and nothing else
raises one. -/
def Obligations.StackFaultsAreExplicit : Prop :=
  (∀ (s : State) (nnn : Addr12), s.sp.val = 16 →
    exec (.call nnn) s = .next (s.StopsWith (.stackFault s.pc (encode (.call nnn)) .overflow))) ∧
  (∀ s : State, s.sp.val = 0 → exec .ret s = .next (s.StopsWith (.stackFault s.pc 0x00EE .underflow))) ∧
  (∀ (i : Instr) (s t : State) (pc op : Word) (kind : StackFaultKind), s.NotHalted → exec i s = .next t →
    t.status = .halted (.stackFault pc op kind) →
    ((∃ nnn, i = .call nnn) ∧ s.sp.val = 16 ∧ kind = .overflow) ∨ (i = .ret ∧ s.sp.val = 0 ∧ kind = .underflow))

/-- Every step of the machine has a next state, but for a load of a ROM over 3584 bytes by a core that may be replaced: it fails with
the load error, code 6, and leaves no core (R255, R258). Which cores take a load is log entry 11, the load error as an outcome log
entry 10. -/
def Obligations.OnlyAnOversizedLoadFaults : Prop :=
  ∀ s : State, (∃ t, step s = .next t) ∨
    ∃ t0 rom es, s.host = .load t0 rom :: es ∧ 3584 < rom.length ∧ s.status ≠ .running ∧ (∀ x, s.status ≠ .waitKey x) ∧
      step s = .fault (.romTooLarge rom.length) ∧ (Fault.romTooLarge rom.length).code = 6

/-! ### Memory (20_memory.md) -/

/-- Two canonical memories that read the same at every address are the same list (the list form is the model's, log entry 17). -/
def Obligations.CanonicalMemoryIsItsReads : Prop :=
  ∀ (font : Font) (m n : Memory), m.wf font = true → n.wf font = true →
    (∀ a, a < 4096 → m.read font a = n.read font a) → m = n

/-- R81: two neighbouring bytes that `Fx55` stores at the address PC moves to are the next word fetched. -/
def Obligations.StoredBytesAreTheNextWord : Prop :=
  ∀ (s : State) (x k l : Reg), s.cfg.memOob = .wrap → l.val = k.val + 1 → l ≤ x →
    mapAddr (s.i.toNat + k.val) = mapAddr (s.pc + 2).toNat →
    ∃ t, exec (.storeRegs x) s = .next t ∧ t.pc = s.pc + 2 ∧ t.wordAtPc = wordOf (s.getV k) (s.getV l)

/-! ### Control flow (41_control_flow.md) -/

/-- R151, R157: the jumps set PC to `nnn` and to `nnn + V0`, not reduced modulo 4096. -/
def Obligations.JumpsSetPc : Prop :=
  ∀ (nnn : Addr12) (s : State),
    HasEncoding (.jp nnn) 0x1000 0xF000 ∧ HasEncoding (.jpV0 nnn) 0xB000 0xF000 ∧
    (∃ t, exec (.jp nnn) s = .next t ∧ t.pc.toNat = nnn.toNat ∧ SameExcept [.pc] s t) ∧
    (∃ t, exec (.jpV0 nnn) s = .next t ∧ t.pc.toNat = nnn.toNat + (s.getV 0).toNat ∧ SameExcept [.pc] s t)

/-- R152: a call pushes its own address and jumps; with the stack full it faults before any write. -/
def Obligations.CallPushesItsOwnAddress : Prop :=
  ∀ (nnn : Addr12) (s : State),
    HasEncoding (.call nnn) 0x2000 0xF000 ∧
    (s.sp.val < 16 → ∃ t, exec (.call nnn) s = .next t ∧ t.pc.toNat = nnn.toNat ∧ t.sp.val = s.sp.val + 1 ∧
      (∀ k : Fin 16, t.stack[k] = if k.val = s.sp.val then s.pc else s.stack[k]) ∧ SameExcept [.pc, .stack] s t) ∧
    (s.sp.val = 16 → exec (.call nnn) s = .next (s.StopsWith (.stackFault s.pc (encode (.call nnn)) .overflow)))

/-- R150: a return pops the top entry and sets PC 2 bytes after the address it holds, leaving the entry in place; with the stack empty
it faults before any write. (That the entry a call pushed is the call site's is `CallPushesItsOwnAddress`.) -/
def Obligations.ReturnResumesAfterTheCallSite : Prop :=
  ∀ s : State,
    HasEncoding .ret 0x00EE 0xFFFF ∧
    (∀ top : Fin 16, s.sp.val = top.val + 1 → ∃ t, exec .ret s = .next t ∧ t.sp.val = top.val ∧ t.pc = s.stack[top] + 2 ∧
      t.stack = s.stack ∧ SameExcept [.pc, .stack] s t) ∧
    (s.sp.val = 0 → exec .ret s = .next (s.StopsWith (.stackFault s.pc 0x00EE .underflow)))

/-- R153 to R156: the four register skips go 4 bytes on when their condition holds and 2 when it does not, modulo 2^16. -/
def Obligations.RegisterSkipsTestAndAdvance : Prop :=
  ∀ (x y : Reg) (kk : Byte) (s : State),
    HasEncoding (.seImm x kk) 0x3000 0xF000 ∧ HasEncoding (.sneImm x kk) 0x4000 0xF000 ∧
    HasEncoding (.seReg x y) 0x5000 0xF00F ∧ HasEncoding (.sneReg x y) 0x9000 0xF00F ∧
    (∃ t, exec (.seImm x kk) s = .next t ∧
      t.pc.toNat = (s.pc.toNat + if s.getV x = kk then 4 else 2) % 65536 ∧ SameExcept [.pc] s t) ∧
    (∃ t, exec (.sneImm x kk) s = .next t ∧
      t.pc.toNat = (s.pc.toNat + if s.getV x = kk then 2 else 4) % 65536 ∧ SameExcept [.pc] s t) ∧
    (∃ t, exec (.seReg x y) s = .next t ∧
      t.pc.toNat = (s.pc.toNat + if s.getV x = s.getV y then 4 else 2) % 65536 ∧ SameExcept [.pc] s t) ∧
    (∃ t, exec (.sneReg x y) s = .next t ∧
      t.pc.toNat = (s.pc.toNat + if s.getV x = s.getV y then 2 else 4) % 65536 ∧ SameExcept [.pc] s t)

/-- R158: a call at address A and then the return at `nnn` as the next instruction leave PC = A + 2 and SP as before the call. -/
def Obligations.CallThenReturnComesBack : Prop :=
  ∀ (s : State) (nnn : Addr12) (a b : StepInput) (es : List HostEvent),
    s.status = .running → s.host = .step a :: .step b :: es → s.cfg.memOob = .wrap → s.sp.val < 16 →
    s.wordAtPc = encode (.call nnn) → State.wordAtPc { s with pc := nnn.setWidth 16 } = 0x00EE →
    ∃ t, Sys2Proof.core.run 2 s = .next t ∧ t.pc = s.pc + 2 ∧ t.sp = s.sp ∧ t.host = es ∧
      SameExcept [.pc, .stack, .dt, .st, .tickRef, .boundary] s t

/-! ### Registers and arithmetic (42_alu.md) -/

/-- R171 to R173: the register loads and the immediate add, which records no carry. -/
def Obligations.LoadsAndImmediateAdd : Prop :=
  ∀ (x y : Reg) (kk : Byte) (s : State),
    HasEncoding (.ldImm x kk) 0x6000 0xF000 ∧ HasEncoding (.addImm x kk) 0x7000 0xF000 ∧
    HasEncoding (.ldReg x y) 0x8000 0xF00F ∧
    (∃ t, exec (.ldImm x kk) s = .next t ∧ t.getV x = kk ∧ (∀ r, r ≠ x → t.getV r = s.getV r) ∧ t.pc = s.pc + 2 ∧
      SameExcept [.v, .pc] s t) ∧
    (∃ t, exec (.addImm x kk) s = .next t ∧ (t.getV x).toNat = ((s.getV x).toNat + kk.toNat) % 256 ∧
      (∀ r, r ≠ x → t.getV r = s.getV r) ∧ t.pc = s.pc + 2 ∧ SameExcept [.v, .pc] s t) ∧
    (∃ t, exec (.ldReg x y) s = .next t ∧ t.getV x = s.getV y ∧ (∀ r, r ≠ x → t.getV r = s.getV r) ∧ t.pc = s.pc + 2 ∧
      SameExcept [.v, .pc] s t)

/-- R174 to R176: the bitwise instructions, bit by bit; VF is written only as Vx. -/
def Obligations.BitwiseInstructionsLeaveTheFlag : Prop :=
  ∀ (x y : Reg) (s : State),
    HasEncoding (.orReg x y) 0x8001 0xF00F ∧ HasEncoding (.andReg x y) 0x8002 0xF00F ∧
    HasEncoding (.xorReg x y) 0x8003 0xF00F ∧
    (∃ t, exec (.orReg x y) s = .next t ∧
      (∀ b, (t.getV x).getLsbD b = ((s.getV x).getLsbD b || (s.getV y).getLsbD b)) ∧
      (∀ r, r ≠ x → t.getV r = s.getV r) ∧ t.pc = s.pc + 2 ∧ SameExcept [.v, .pc] s t) ∧
    (∃ t, exec (.andReg x y) s = .next t ∧
      (∀ b, (t.getV x).getLsbD b = ((s.getV x).getLsbD b && (s.getV y).getLsbD b)) ∧
      (∀ r, r ≠ x → t.getV r = s.getV r) ∧ t.pc = s.pc + 2 ∧ SameExcept [.v, .pc] s t) ∧
    (∃ t, exec (.xorReg x y) s = .next t ∧
      (∀ b, (t.getV x).getLsbD b = ((s.getV x).getLsbD b ^^ (s.getV y).getLsbD b)) ∧
      (∀ r, r ≠ x → t.getV r = s.getV r) ∧ t.pc = s.pc + 2 ∧ SameExcept [.v, .pc] s t)

/-- R177: `8xy4` puts the carry in VF, then the sum modulo 256 in Vx, both from the operands before the instruction; with x = F the
sum stays. -/
def Obligations.AddRecordsTheCarry : Prop :=
  ∀ (x y : Reg) (s : State),
    HasEncoding (.addReg x y) 0x8004 0xF00F ∧
    ∃ t, exec (.addReg x y) s = .next t ∧
      (t.getV x).toNat = ((s.getV x).toNat + (s.getV y).toNat) % 256 ∧
      (x ≠ 0xF → t.getV 0xF = if 256 ≤ (s.getV x).toNat + (s.getV y).toNat then 1 else 0) ∧
      (∀ r, r ≠ x → r ≠ 0xF → t.getV r = s.getV r) ∧ t.pc = s.pc + 2 ∧ SameExcept [.v, .pc] s t

/-- R178, R180: the subtractions put the strict comparison in VF, then the difference modulo 256 in Vx. -/
def Obligations.SubtractRecordsStrictComparison : Prop :=
  ∀ (x y : Reg) (s : State),
    HasEncoding (.subReg x y) 0x8005 0xF00F ∧ HasEncoding (.subnReg x y) 0x8007 0xF00F ∧
    (∃ t, exec (.subReg x y) s = .next t ∧
      ((t.getV x).toNat : ℤ) = (((s.getV x).toNat : ℤ) - (s.getV y).toNat) % 256 ∧
      (x ≠ 0xF → t.getV 0xF = if (s.getV y).toNat < (s.getV x).toNat then 1 else 0) ∧
      (∀ r, r ≠ x → r ≠ 0xF → t.getV r = s.getV r) ∧ t.pc = s.pc + 2 ∧ SameExcept [.v, .pc] s t) ∧
    (∃ t, exec (.subnReg x y) s = .next t ∧
      ((t.getV x).toNat : ℤ) = (((s.getV y).toNat : ℤ) - (s.getV x).toNat) % 256 ∧
      (x ≠ 0xF → t.getV 0xF = if (s.getV x).toNat < (s.getV y).toNat then 1 else 0) ∧
      (∀ r, r ≠ x → r ≠ 0xF → t.getV r = s.getV r) ∧ t.pc = s.pc + 2 ∧ SameExcept [.v, .pc] s t)

/-- R179, R181: the shifts put the bit shifted out in VF, then the shifted Vx in Vx; Vy is not read. -/
def Obligations.ShiftsRecordTheBitShiftedOut : Prop :=
  ∀ (x y : Reg) (s : State),
    HasEncoding (.shr x y) 0x8006 0xF00F ∧ HasEncoding (.shl x y) 0x800E 0xF00F ∧
    (∃ t, exec (.shr x y) s = .next t ∧ (t.getV x).toNat = (s.getV x).toNat / 2 ∧
      (x ≠ 0xF → (t.getV 0xF).toNat = (s.getV x).toNat % 2) ∧
      (∀ r, r ≠ x → r ≠ 0xF → t.getV r = s.getV r) ∧ t.pc = s.pc + 2 ∧ SameExcept [.v, .pc] s t) ∧
    (∃ t, exec (.shl x y) s = .next t ∧ (t.getV x).toNat = 2 * (s.getV x).toNat % 256 ∧
      (x ≠ 0xF → (t.getV 0xF).toNat = (s.getV x).toNat / 128) ∧
      (∀ r, r ≠ x → r ≠ 0xF → t.getV r = s.getV r) ∧ t.pc = s.pc + 2 ∧ SameExcept [.v, .pc] s t)

/-- R182: `Cxkk` stores the port's byte, whatever it is, masked by `kk`. -/
def Obligations.RandomByteIsMasked : Prop :=
  ∀ (x : Reg) (kk : Byte) (s : State),
    HasEncoding (.rnd x kk) 0xC000 0xF000 ∧
    ∃ t, exec (.rnd x kk) s = .next t ∧ (∀ b, (t.getV x).getLsbD b = (s.port.rnd.getLsbD b && kk.getLsbD b)) ∧
      (∀ r, r ≠ x → t.getV r = s.getV r) ∧ t.pc = s.pc + 2 ∧ SameExcept [.v, .pc] s t

/-! ### Index and memory (43_index_memory.md) -/

/-- R191 to R193: the three writes to I, the add modulo 2^16, the glyph address not reduced. -/
def Obligations.IndexRegisterWrites : Prop :=
  ∀ (nnn : Addr12) (x : Reg) (s : State),
    HasEncoding (.ldI nnn) 0xA000 0xF000 ∧ HasEncoding (.addI x) 0xF01E 0xF0FF ∧ HasEncoding (.ldF x) 0xF029 0xF0FF ∧
    (∃ t, exec (.ldI nnn) s = .next t ∧ t.i.toNat = nnn.toNat ∧ t.pc = s.pc + 2 ∧ SameExcept [.i, .pc] s t) ∧
    (∃ t, exec (.addI x) s = .next t ∧ t.i.toNat = (s.i.toNat + (s.getV x).toNat) % 65536 ∧ t.pc = s.pc + 2 ∧
      SameExcept [.i, .pc] s t) ∧
    (∃ t, exec (.ldF x) s = .next t ∧ t.i.toNat = 5 * (s.getV x).toNat ∧ t.pc = s.pc + 2 ∧ SameExcept [.i, .pc] s t)

/-- R194: `Fx33` stores the three decimal digits at I, I + 1 and I + 2, and changes no other byte; I stays. Where it stops, the address
recorded is the spec's own choice (R72, D1), the record D17's. -/
def Obligations.DecimalDigitsAreStored : Prop :=
  ∀ (x : Reg) (s : State),
    HasEncoding (.ldB x) 0xF033 0xF0FF ∧ StopsOutOfRange (.ldB x) s ∧
    (s.Accessible s.i.toNat 3 → ∃ t, exec (.ldB x) s = .next t ∧
      (t.readByte s.i.toNat).toNat = (s.getV x).toNat / 100 ∧
      (t.readByte (s.i.toNat + 1)).toNat = (s.getV x).toNat / 10 % 10 ∧
      (t.readByte (s.i.toNat + 2)).toNat = (s.getV x).toNat % 10 ∧
      (∀ a, (∀ k, k < 3 → mapAddr a ≠ mapAddr (s.base + k)) → t.readByte a = s.readByte a) ∧
      t.pc = s.pc + 2 ∧ SameExcept [.mem, .pc] s t)

/-- R195: `Fx55` stores V0..Vx at I..I + x, and changes no other byte; I stays. Where it stops, the address recorded is the spec's own
choice (R72, D1), the record D17's. -/
def Obligations.RegistersAreStored : Prop :=
  ∀ (x : Reg) (s : State),
    HasEncoding (.storeRegs x) 0xF055 0xF0FF ∧ StopsOutOfRange (.storeRegs x) s ∧
    (s.Accessible s.i.toNat (x.val + 1) → ∃ t, exec (.storeRegs x) s = .next t ∧
      (∀ k : Reg, k ≤ x → t.readByte (s.i.toNat + k.val) = s.getV k) ∧
      (∀ a, (∀ k, k < x.val + 1 → mapAddr a ≠ mapAddr (s.base + k)) → t.readByte a = s.readByte a) ∧
      t.pc = s.pc + 2 ∧ SameExcept [.mem, .pc] s t)

/-- R196: `Fx65` loads V0..Vx from I..I + x; the other registers and I stay. Where it stops, the address recorded is the spec's own choice
(R72, D1), the record D17's. -/
def Obligations.RegistersAreLoaded : Prop :=
  ∀ (x : Reg) (s : State),
    HasEncoding (.loadRegs x) 0xF065 0xF0FF ∧ StopsOutOfRange (.loadRegs x) s ∧
    (s.Accessible s.i.toNat (x.val + 1) → ∃ t, exec (.loadRegs x) s = .next t ∧
      (∀ k : Reg, t.getV k = if k ≤ x then s.readByte (s.i.toNat + k.val) else s.getV k) ∧
      t.pc = s.pc + 2 ∧ SameExcept [.v, .pc] s t)

/-- R197: `Fx55` and later `Fx65`, with the same x, I and memory between them and any registers, leave V0..Vx and the bytes at I..I + x
equal to the registers' values before the store. -/
def Obligations.StoreThenLoadRestoresRegisters : Prop :=
  ∀ (x : Reg) (s t u : State), s.Accessible s.i.toNat (x.val + 1) → exec (.storeRegs x) s = .next t →
    u.i = t.i → u.mem = t.mem → u.cfg = t.cfg →
    ∃ w, exec (.loadRegs x) u = .next w ∧
      ∀ k : Reg, k ≤ x → w.getV k = s.getV k ∧ w.readByte (s.i.toNat + k.val) = s.getV k

/-! ### Display (44_display.md) -/

/-- R212, R215: `00E0` turns every pixel off. With no drain inside it, whatever order it visits the pixels in, it marks dirty exactly
the pixels that were on, keeps the other dirty bits (the spec's own choice, D13), and hands nothing to the host. -/
def Obligations.ClearTurnsEveryPixelOff : Prop :=
  ∀ s : State,
    HasEncoding .cls 0x00E0 0xFFFF ∧
    ∃ t, exec .cls s = .next t ∧ (∀ a b, t.disp.pix.at a b = false) ∧
      (s.cfg.drainAtomicity = .instruction ∨ s.port.drains = [] →
        (∀ a b, t.disp.dirty.at a b = (s.disp.dirty.at a b || s.disp.pix.at a b)) ∧ t.disp.out = s.disp.out) ∧
      t.pc = s.pc + 2 ∧ SameExcept [.disp, .pc] s t

/-- R216, with the bit order of R217 (the spec's own choice, D12): `Dxyn` toggles exactly the pixels that a 1-bit of the sprite covers,
sets VF to 1 iff one of them was on, and marks the toggled pixels dirty; n = 0 covers none. That the other dirty bits stay (R211, D13),
and the address recorded where it stops (R72, D1), are the spec's own choices too. -/
def Obligations.DrawTogglesTheCoveredPixels : Prop :=
  ∀ (x y : Reg) (n : Fin 16) (s : State),
    HasEncoding (.drw x y n) 0xD000 0xF000 ∧ StopsOutOfRange (.drw x y n) s ∧
    (s.Accessible s.i.toNat n.val → ∃ t, exec (.drw x y n) s = .next t ∧
      (∀ a b, s.SpriteCovers x y n a b → t.disp.pix.at a b = !s.disp.pix.at a b) ∧
      (∀ a b, ¬ s.SpriteCovers x y n a b → t.disp.pix.at a b = s.disp.pix.at a b) ∧
      ((∃ a b, s.SpriteCovers x y n a b ∧ s.disp.pix.at a b = true) → t.getV 0xF = 1) ∧
      ((∀ a b, s.SpriteCovers x y n a b → s.disp.pix.at a b = false) → t.getV 0xF = 0) ∧
      (s.cfg.drainAtomicity = .instruction ∨ s.port.drains = [] →
        (∀ a b, s.SpriteCovers x y n a b → t.disp.dirty.at a b = true) ∧
        (∀ a b, ¬ s.SpriteCovers x y n a b → t.disp.dirty.at a b = s.disp.dirty.at a b) ∧ t.disp.out = s.disp.out) ∧
      (∀ r, r ≠ 0xF → t.getV r = s.getV r) ∧ t.pc = s.pc + 2 ∧ SameExcept [.v, .disp, .pc] s t)

/-- R218: drawing the same sprite at the same place twice leaves every pixel as it was; the second VF is 1 iff a 1-bit fell on a pixel
that was off before the first draw; the toggled pixels are dirty. A drain may fall between the two. -/
def Obligations.DrawingTwiceRestoresThePixels : Prop :=
  ∀ (x y : Reg) (n : Fin 16) (s t u : State), s.Accessible s.i.toNat n.val → exec (.drw x y n) s = .next t →
    u.disp.pix = t.disp.pix → u.i = s.i → u.mem = s.mem → u.cfg = s.cfg → u.getV x = s.getV x → u.getV y = s.getV y →
    ∃ w, exec (.drw x y n) u = .next w ∧
      (∀ a b, w.disp.pix.at a b = s.disp.pix.at a b) ∧
      (w.getV 0xF = 1 ↔ ∃ a b, s.SpriteCovers x y n a b ∧ s.disp.pix.at a b = false) ∧
      (s.cfg.drainAtomicity = .instruction ∨ u.port.drains = [] → ∀ a b, s.SpriteCovers x y n a b → w.disp.dirty.at a b = true)

/-- R214: a drain hands the host each dirty pixel once, with its present value, and clears its dirty bit; it changes nothing else, in
any status, and a second drain hands over nothing. The value is the spec's choice (D13), the record the model's (log entry 8). -/
def Obligations.DrainHandsOverTheDirtyPixels : Prop :=
  ∀ (s : State) (es : List HostEvent), s.host = .drain :: es →
    ∃ t us, step s = .next t ∧ t.disp.out = us :: s.disp.out ∧ us.Nodup ∧
      (∀ u, u ∈ us ↔ s.disp.dirty.at u.x u.y = true ∧ u.on = s.disp.pix.at u.x u.y) ∧
      t.disp.pix = s.disp.pix ∧ (∀ a b, t.disp.dirty.at a b = false) ∧ t.drain.disp.out = [] :: t.disp.out ∧
      t.host = es ∧ t.cfg = s.cfg ∧ t.port = s.port ∧ t.draws = s.draws ∧ SameExcept [.disp, .boundary] s t

/-- R219: under either policy, a pixel that an instruction changes, or that was dirty before it, is dirty after it or stands, with the
value it has after it, in an update handed over meanwhile. The record of what was handed over and its order are the model's (log entry
8). -/
def Obligations.NoPixelChangeIsLost : Prop :=
  ∀ (i : Instr) (s t : State), exec i s = .next t →
    ∃ new, t.disp.out = new ++ s.disp.out ∧
      ∀ a b, (s.disp.dirty.at a b = true ∨ s.disp.pix.at a b ≠ t.disp.pix.at a b) →
        t.disp.dirty.at a b = true ∨ ∃ us ∈ new, ∃ u ∈ us, u.x = a ∧ u.y = b ∧ u.on = t.disp.pix.at a b

/-- R289: drains inside an instruction affect what the host is handed and the dirty bits, never the pixels, the registers or any other
part of the core. -/
def Obligations.TearingNeverReachesTheCore : Prop :=
  ∀ (i : Instr) (s t u : State), exec i { s with cfg := { s.cfg with drainAtomicity := .instruction } } = .next t →
    exec i { s with cfg := { s.cfg with drainAtomicity := .pixel } } = .next u →
    u.disp.pix = t.disp.pix ∧ SameExcept [.disp, .boundary] t u

/-! ### Keys and timers (45_keys_timers.md) -/

/-- R231 to R233: `Ex9E` skips iff the key is pressed and `ExA1` iff it is not. A key index of 16 or more names no key, names the key of
its low nibble, or stops the core, by the parameter (the spec's own choice, D8). -/
def Obligations.KeySkipsFollowTheKeys : Prop :=
  ∀ (x : Reg) (s : State),
    HasEncoding (.skp x) 0xE09E 0xF0FF ∧ HasEncoding (.sknp x) 0xE0A1 0xF0FF ∧
    (∀ pressed : Bool,
      ((∃ k : Key, (s.getV x).toNat = k.val ∧ s.port.keys[k] = pressed) ∨
        (16 ≤ (s.getV x).toNat ∧ s.cfg.keyOor = .notPressed ∧ pressed = false) ∨
        (16 ≤ (s.getV x).toNat ∧ s.cfg.keyOor = .lowNibble ∧
          ∃ k : Key, (s.getV x).toNat % 16 = k.val ∧ s.port.keys[k] = pressed)) →
      (∃ t, exec (.skp x) s = .next t ∧ t.pc = s.pc + (if pressed then 4 else 2) ∧ SameExcept [.pc] s t) ∧
      (∃ t, exec (.sknp x) s = .next t ∧ t.pc = s.pc + (if pressed then 2 else 4) ∧ SameExcept [.pc] s t)) ∧
    (16 ≤ (s.getV x).toNat → s.cfg.keyOor = .ubStop →
      exec (.skp x) s = .next (s.StopsWith (.ubStop s.pc (some (encode (.skp x))) (.keyIndex (s.getV x)))) ∧
      exec (.sknp x) s = .next (s.StopsWith (.ubStop s.pc (some (encode (.sknp x))) (.keyIndex (s.getV x)))))

/-- R234, R238, R239: the moves between Vx and the timers; none touches the tick reference. -/
def Obligations.TimerRegisterMoves : Prop :=
  ∀ (x : Reg) (s : State),
    HasEncoding (.ldVxDt x) 0xF007 0xF0FF ∧ HasEncoding (.ldDtVx x) 0xF015 0xF0FF ∧ HasEncoding (.ldStVx x) 0xF018 0xF0FF ∧
    (∃ t, exec (.ldVxDt x) s = .next t ∧ t.getV x = s.dt ∧ (∀ r, r ≠ x → t.getV r = s.getV r) ∧ t.pc = s.pc + 2 ∧
      SameExcept [.v, .pc] s t) ∧
    (∃ t, exec (.ldDtVx x) s = .next t ∧ t.dt = s.getV x ∧ t.pc = s.pc + 2 ∧ SameExcept [.dt, .pc] s t) ∧
    (∃ t, exec (.ldStVx x) s = .next t ∧ t.st = s.getV x ∧ t.pc = s.pc + 2 ∧ SameExcept [.st, .pc] s t)

/-- R235: `Fx0A` puts the core in `WaitKey(x)` and writes nothing else; PC keeps the instruction's address. -/
def Obligations.KeyWaitBegins : Prop :=
  ∀ (x : Reg) (s : State),
    HasEncoding (.ldVxK x) 0xF00A 0xF0FF ∧
    ∃ t, exec (.ldVxK x) s = .next t ∧ t.status = .waitKey x ∧ SameExcept [.status] s t

/-- R236: a key press completes the wait: Vx receives the key's index, PC advances, the core runs on, and no timer update happens. In
any other status a key press has no effect on the core. These are the spec's own choices (D9, D10, D30). -/
def Obligations.KeyPressCompletesTheWait : Prop :=
  ∀ (s : State) (k : Key) (es : List HostEvent), s.host = .press k :: es →
    (∀ x, s.status = .waitKey x → ∃ t, step s = .next t ∧ (t.getV x).toNat = k.val ∧
      (∀ r, r ≠ x → t.getV r = s.getV r) ∧ t.pc = s.pc + 2 ∧ t.status = .running ∧ t.host = es ∧ t.port = s.port ∧
      SameExcept [.v, .pc, .status, .boundary] s t) ∧
    ((∀ x, s.status ≠ .waitKey x) → step s = .next { s with host := es })

/-- R237, R265: a cancellation stops a running or waiting core and changes nothing else; a halted or stopped core stays as it is (the
spec's own choice, D10). -/
def Obligations.CancelOnlyStops : Prop :=
  ∀ (s : State) (es : List HostEvent), s.host = .cancel :: es →
    ((s.status = .running ∨ ∃ x, s.status = .waitKey x) → step s = .next { s with host := es, status := .stopped }) ∧
    ((s.status = .stopped ∨ ∃ e, s.status = .halted e) → step s = .next { s with host := es })

/-! ### Reset and load (70_reset_and_hazards.md) -/

/-- R53, R280: a load leaves every state element at its reset value, with the font at 0x000, the ROM at 0x200 and zero elsewhere (the
display's, the tick reference's and the status's values are the spec's own choices, D14, D7, D17). -/
def Obligations.LoadGivesEveryResetValue : Prop :=
  ∀ (cfg : Config) (t0 : Nat) (rom : List Byte), rom.length ≤ 3584 →
    ∃ s, loadRom cfg t0 rom = .ok s ∧ s.cfg = cfg ∧ s.HasLoadValues t0 rom

/-- R282, R255: a ROM over 3584 bytes is refused with the load error, code 6, and no core is made. -/
def Obligations.OversizedRomIsRefused : Prop :=
  ∀ (cfg : Config) (t0 : Nat) (rom : List Byte), 3584 < rom.length →
    loadRom cfg t0 rom = .error (.romTooLarge rom.length) ∧ (Fault.romTooLarge rom.length).code = 6

/-- The reset state meets the invariant. Reset as a load of an empty ROM, its `T0` and clock, and the list form of memory are the model's
choices (log entries 1, 3, 6 and 17). -/
def Obligations.ResetMeetsTheInvariant : Prop := State.reset.Inv

/-- Every step of the machine, whatever event it delivers, keeps the invariant: canonical memory, a tick reference not after the
clock, a waiting core at its `Fx0A`, a halted core with a true record. The list form of memory is the model's choice (log entry 17), and
so are the clock and the latch (log entries 6 and 7); that the tick reference becomes `now` and that `now` never goes back are the
spec's own (D7, D28). -/
def Obligations.EveryStepKeepsTheInvariant : Prop := ∀ s t : State, s.Inv → step s = .next t → t.Inv

/-- R284: a restart carries nothing over from the old core: two cores that may be replaced, alike at the boundary only, give the same
new core. That the pending events and the draw count go on is the model's choice (log entry 11). -/
def Obligations.RestartForgetsTheOldCore : Prop :=
  ∀ (s t : State) (t0 : Nat) (rom : List Byte) (es : List HostEvent),
    (s.status = .stopped ∨ ∃ e, s.status = .halted e) → (t.status = .stopped ∨ ∃ e, t.status = .halted e) →
    s.cfg = t.cfg → s.draws = t.draws → s.host = .load t0 rom :: es → t.host = .load t0 rom :: es → step s = step t

/-! ### Whole-machine rules -/

/-- R33, R34, R39, R41, R45, R49, R71: an instruction writes no part of the state and no register but those the spec gives it. -/
def Obligations.EachInstructionWritesOnlyItsOwn : Prop :=
  ∀ (i : Instr) (s t : State), exec i s = .next t →
    SameExcept (writtenParts i) s t ∧ ∀ r, r ∉ writtenRegs i → t.getV r = s.getV r

/-- R54: no step lets a program see the dirty bits or what was drained: states alike but for them stay alike but for them. -/
def Obligations.DirtyBitsAreUnobservable : Prop :=
  ∀ s t : State, s.hideDirty = t.hideDirty → SameOutcome State.hideDirty (step s) (step t)

/-- R45: no instruction reads ST: states alike but for ST stay alike but for ST. -/
def Obligations.SoundTimerIsUnobservable : Prop :=
  ∀ s t : State, s.hideSt = t.hideSt → SameOutcome State.hideSt (step s) (step t)

/-- R44: no step observes a stack entry at index SP or above. -/
def Obligations.DeadStackEntriesAreUnobservable : Prop :=
  ∀ s t : State, s.hideDeadStack = t.hideDeadStack → SameOutcome State.hideDeadStack (step s) (step t)

/-- An instruction takes a running core out of `Running` by being `Fx0A` or by raising an error alone; under the default `MEM_OOB` and
`KEY_INDEX_OOR` the only errors an instruction raises are the two stack faults, so every other instruction is total (R254, R259, R268).
(What a step does beside its instruction is `RunningIsLeftAsTheSpecSays`.) -/
def Obligations.OnlyKeyWaitAndErrorsLeaveRunning : Prop :=
  ∀ (i : Instr) (s t : State), s.status = .running → exec i s = .next t →
    t.status = .running ∨ (∃ x, i = .ldVxK x ∧ t.status = .waitKey x) ∨
      ∃ e, t.status = .halted e ∧ (s.cfg.memOob = .wrap → s.cfg.keyOor = .notPressed →
        (∃ nnn, i = .call nnn ∧ s.sp.val = 16) ∨ (i = .ret ∧ s.sp.val = 0))

/-- The parameters of R8 never change, and the host's clock never goes back but at a load (R130). That the state holds both is the
model's choice (log entries 2 and 7). -/
def Obligations.ParametersStayAndClockNeverGoesBack : Prop :=
  ∀ s t : State, step s = .next t → t.cfg = s.cfg ∧ (¬ s.LoadIsNext → s.port.now ≤ t.port.now)

/-! ### Loads, errors and the run state, for a whole step -/

/-- R280, R282, R284: a load event makes a stopped or halted core a new one with every state element at its reset value, or fails with
the load error where the ROM is over 3584 bytes; a running or waiting core only has the event consumed. The display's, the tick
reference's and the status's values are the spec's own choices (D14, D7, D17); which cores take a load, and that the parameters, the
pending events and the draw count go on, are the model's (log entries 2 and 11), as are the port at rest and the stream (log entries 6
and 8) and the load error as an outcome (log entry 10). -/
def Obligations.LoadEventReplacesAnEndedCore : Prop :=
  ∀ (s : State) (t0 : Nat) (rom : List Byte) (es : List HostEvent), s.host = .load t0 rom :: es →
    ((s.status = .stopped ∨ ∃ e, s.status = .halted e) → rom.length ≤ 3584 →
      ∃ t, step s = .next t ∧ t.HasLoadValues t0 rom ∧ t.disp.out = [] ∧ t.cfg = s.cfg ∧ t.port = StepInput.idle t0 ∧
        t.host = es ∧ t.draws = s.draws) ∧
    ((s.status = .stopped ∨ ∃ e, s.status = .halted e) → 3584 < rom.length →
      step s = .fault (.romTooLarge rom.length)) ∧
    ((s.status = .running ∨ ∃ x, s.status = .waitKey x) → step s = .next { s with host := es })

/-- The table of R252: a step that raises has one of five codes, and the code says the error, its record and what raised it. The codes and
the records are the spec's own choices (D17), the address under `MEM_OOB = fault` and the parameters D1 and D8. (Code 6 is
`OversizedRomIsRefused`.) -/
def Obligations.ErrorCodesFollowTheTable : Prop :=
  ∀ (s u t : State) (e : Error), s.BeginsStep u → step s = .next t → t.status = .halted e →
    (e.code = 1 ∧ e = .decodeError s.pc s.wordAtPc ∧ decodeWord s.wordAtPc = none) ∨
    (e.code = 2 ∧ e = .stackFault s.pc s.wordAtPc .overflow ∧ s.sp.val = 16 ∧ ∃ nnn, decodeWord s.wordAtPc = some (.call nnn)) ∨
    (e.code = 3 ∧ e = .stackFault s.pc s.wordAtPc .underflow ∧ s.sp.val = 0 ∧ decodeWord s.wordAtPc = some .ret) ∨
    (e.code = 4 ∧ ∃ a, e = .ubStop s.pc none (.memoryRange a) ∧ s.OutOfRange s.pc.toNat 2 a) ∨
    (e.code = 4 ∧ ∃ a i, e = .ubStop s.pc (some s.wordAtPc) (.memoryRange a) ∧ decodeWord s.wordAtPc = some i ∧
      s.OutOfRange s.i.toNat (dataBytes i) a) ∨
    (e.code = 5 ∧ ∃ x, e = .ubStop s.pc (some s.wordAtPc) (.keyIndex (s.getV x)) ∧ s.cfg.keyOor = .ubStop ∧
      16 ≤ (s.getV x).toNat ∧ (decodeWord s.wordAtPc = some (.skp x) ∨ decodeWord s.wordAtPc = some (.sknp x)))

/-- R47, R268: over any step of the machine, a running core runs on, or is stopped by a cancellation, or has taken a step of its own that
began an `Fx0A` wait or raised an error; under the default `MEM_OOB` and `KEY_INDEX_OOR` that error is a decode error or a stack fault.
(That one step of the machine is one host event is log entry 6; the statuses are the spec's own choice, D17, and so is the
cancellation, D10.) -/
def Obligations.RunningIsLeftAsTheSpecSays : Prop :=
  ∀ s t : State, s.status = .running → step s = .next t →
    t.status = .running ∨ (∃ es, s.host = .cancel :: es ∧ t.status = .stopped) ∨
      ((∃ u, s.BeginsStep u) ∧
        ((∃ x, t.status = .waitKey x ∧ decodeWord s.wordAtPc = some (.ldVxK x)) ∨
          ∃ e, t.status = .halted e ∧ (s.cfg.memOob = .wrap → s.cfg.keyOor = .notPressed →
            e.code = 1 ∨ e.code = 2 ∨ e.code = 3)))
end

