-- ==== Sys2Proof/Laws/State.lean ====
section
/-! SUPPORT. What each named update of the state leaves in each field: one lemma per field per update, true by definition, and the
two readers `getV` and `readByte` after each update. Later proofs cite these and unfold no record update. -/

namespace Sys2Proof.Machine

/-! ### The readers depend on the fields they read -/

theorem State.getV_congr {s t : State} (h : t.v = s.v) (y : Reg) : t.getV y = s.getV y := by simp only [State.getV, h]

theorem State.readByte_congr {s t : State} (hm : t.mem = s.mem) (hc : t.cfg = s.cfg) (a : Nat) :
    t.readByte a = s.readByte a := by simp only [State.readByte, hm, hc]

/-! ### `setV` -/

@[simp] theorem State.setV_v (s : State) (x : Reg) (b : Byte) : (s.setV x b).v = s.v.set x b := rfl
@[simp] theorem State.setV_i (s : State) (x : Reg) (b : Byte) : (s.setV x b).i = s.i := rfl
@[simp] theorem State.setV_pc (s : State) (x : Reg) (b : Byte) : (s.setV x b).pc = s.pc := rfl
@[simp] theorem State.setV_sp (s : State) (x : Reg) (b : Byte) : (s.setV x b).sp = s.sp := rfl
@[simp] theorem State.setV_stack (s : State) (x : Reg) (b : Byte) : (s.setV x b).stack = s.stack := rfl
@[simp] theorem State.setV_dt (s : State) (x : Reg) (b : Byte) : (s.setV x b).dt = s.dt := rfl
@[simp] theorem State.setV_st (s : State) (x : Reg) (b : Byte) : (s.setV x b).st = s.st := rfl
@[simp] theorem State.setV_mem (s : State) (x : Reg) (b : Byte) : (s.setV x b).mem = s.mem := rfl
@[simp] theorem State.setV_disp (s : State) (x : Reg) (b : Byte) : (s.setV x b).disp = s.disp := rfl
@[simp] theorem State.setV_tickRef (s : State) (x : Reg) (b : Byte) : (s.setV x b).tickRef = s.tickRef := rfl
@[simp] theorem State.setV_status (s : State) (x : Reg) (b : Byte) : (s.setV x b).status = s.status := rfl
@[simp] theorem State.setV_cfg (s : State) (x : Reg) (b : Byte) : (s.setV x b).cfg = s.cfg := rfl
@[simp] theorem State.setV_port (s : State) (x : Reg) (b : Byte) : (s.setV x b).port = s.port := rfl
@[simp] theorem State.setV_host (s : State) (x : Reg) (b : Byte) : (s.setV x b).host = s.host := rfl
@[simp] theorem State.setV_draws (s : State) (x : Reg) (b : Byte) : (s.setV x b).draws = s.draws := rfl
@[simp] theorem State.setV_readByte (s : State) (x : Reg) (b : Byte) (a : Nat) : (s.setV x b).readByte a = s.readByte a := rfl

/-! ### `advance` -/

@[simp] theorem State.advance_v (s : State) : (s.advance).v = s.v := rfl
@[simp] theorem State.advance_i (s : State) : (s.advance).i = s.i := rfl
@[simp] theorem State.advance_pc (s : State) : (s.advance).pc = s.pc + 2 := rfl
@[simp] theorem State.advance_sp (s : State) : (s.advance).sp = s.sp := rfl
@[simp] theorem State.advance_stack (s : State) : (s.advance).stack = s.stack := rfl
@[simp] theorem State.advance_dt (s : State) : (s.advance).dt = s.dt := rfl
@[simp] theorem State.advance_st (s : State) : (s.advance).st = s.st := rfl
@[simp] theorem State.advance_mem (s : State) : (s.advance).mem = s.mem := rfl
@[simp] theorem State.advance_disp (s : State) : (s.advance).disp = s.disp := rfl
@[simp] theorem State.advance_tickRef (s : State) : (s.advance).tickRef = s.tickRef := rfl
@[simp] theorem State.advance_status (s : State) : (s.advance).status = s.status := rfl
@[simp] theorem State.advance_cfg (s : State) : (s.advance).cfg = s.cfg := rfl
@[simp] theorem State.advance_port (s : State) : (s.advance).port = s.port := rfl
@[simp] theorem State.advance_host (s : State) : (s.advance).host = s.host := rfl
@[simp] theorem State.advance_draws (s : State) : (s.advance).draws = s.draws := rfl
@[simp] theorem State.advance_getV (s : State) (y : Reg) : (s.advance).getV y = s.getV y := rfl
@[simp] theorem State.advance_readByte (s : State) (a : Nat) : (s.advance).readByte a = s.readByte a := rfl

/-! ### `skipIf` -/

@[simp] theorem State.skipIf_v (s : State) (c : Bool) : (s.skipIf c).v = s.v := rfl
@[simp] theorem State.skipIf_i (s : State) (c : Bool) : (s.skipIf c).i = s.i := rfl
@[simp] theorem State.skipIf_pc (s : State) (c : Bool) : (s.skipIf c).pc = if c then s.pc + 4 else s.pc + 2 := rfl
@[simp] theorem State.skipIf_sp (s : State) (c : Bool) : (s.skipIf c).sp = s.sp := rfl
@[simp] theorem State.skipIf_stack (s : State) (c : Bool) : (s.skipIf c).stack = s.stack := rfl
@[simp] theorem State.skipIf_dt (s : State) (c : Bool) : (s.skipIf c).dt = s.dt := rfl
@[simp] theorem State.skipIf_st (s : State) (c : Bool) : (s.skipIf c).st = s.st := rfl
@[simp] theorem State.skipIf_mem (s : State) (c : Bool) : (s.skipIf c).mem = s.mem := rfl
@[simp] theorem State.skipIf_disp (s : State) (c : Bool) : (s.skipIf c).disp = s.disp := rfl
@[simp] theorem State.skipIf_tickRef (s : State) (c : Bool) : (s.skipIf c).tickRef = s.tickRef := rfl
@[simp] theorem State.skipIf_status (s : State) (c : Bool) : (s.skipIf c).status = s.status := rfl
@[simp] theorem State.skipIf_cfg (s : State) (c : Bool) : (s.skipIf c).cfg = s.cfg := rfl
@[simp] theorem State.skipIf_port (s : State) (c : Bool) : (s.skipIf c).port = s.port := rfl
@[simp] theorem State.skipIf_host (s : State) (c : Bool) : (s.skipIf c).host = s.host := rfl
@[simp] theorem State.skipIf_draws (s : State) (c : Bool) : (s.skipIf c).draws = s.draws := rfl
@[simp] theorem State.skipIf_getV (s : State) (c : Bool) (y : Reg) : (s.skipIf c).getV y = s.getV y := rfl
@[simp] theorem State.skipIf_readByte (s : State) (c : Bool) (a : Nat) : (s.skipIf c).readByte a = s.readByte a := rfl

/-! ### `jump` -/

@[simp] theorem State.jump_v (s : State) (w : Word) : (s.jump w).v = s.v := rfl
@[simp] theorem State.jump_i (s : State) (w : Word) : (s.jump w).i = s.i := rfl
@[simp] theorem State.jump_pc (s : State) (w : Word) : (s.jump w).pc = w := rfl
@[simp] theorem State.jump_sp (s : State) (w : Word) : (s.jump w).sp = s.sp := rfl
@[simp] theorem State.jump_stack (s : State) (w : Word) : (s.jump w).stack = s.stack := rfl
@[simp] theorem State.jump_dt (s : State) (w : Word) : (s.jump w).dt = s.dt := rfl
@[simp] theorem State.jump_st (s : State) (w : Word) : (s.jump w).st = s.st := rfl
@[simp] theorem State.jump_mem (s : State) (w : Word) : (s.jump w).mem = s.mem := rfl
@[simp] theorem State.jump_disp (s : State) (w : Word) : (s.jump w).disp = s.disp := rfl
@[simp] theorem State.jump_tickRef (s : State) (w : Word) : (s.jump w).tickRef = s.tickRef := rfl
@[simp] theorem State.jump_status (s : State) (w : Word) : (s.jump w).status = s.status := rfl
@[simp] theorem State.jump_cfg (s : State) (w : Word) : (s.jump w).cfg = s.cfg := rfl
@[simp] theorem State.jump_port (s : State) (w : Word) : (s.jump w).port = s.port := rfl
@[simp] theorem State.jump_host (s : State) (w : Word) : (s.jump w).host = s.host := rfl
@[simp] theorem State.jump_draws (s : State) (w : Word) : (s.jump w).draws = s.draws := rfl
@[simp] theorem State.jump_getV (s : State) (w : Word) (y : Reg) : (s.jump w).getV y = s.getV y := rfl
@[simp] theorem State.jump_readByte (s : State) (w : Word) (a : Nat) : (s.jump w).readByte a = s.readByte a := rfl

/-! ### `raise` -/

@[simp] theorem State.raise_v (s : State) (e : Error) : (s.raise e).v = s.v := rfl
@[simp] theorem State.raise_i (s : State) (e : Error) : (s.raise e).i = s.i := rfl
@[simp] theorem State.raise_pc (s : State) (e : Error) : (s.raise e).pc = s.pc := rfl
@[simp] theorem State.raise_sp (s : State) (e : Error) : (s.raise e).sp = s.sp := rfl
@[simp] theorem State.raise_stack (s : State) (e : Error) : (s.raise e).stack = s.stack := rfl
@[simp] theorem State.raise_dt (s : State) (e : Error) : (s.raise e).dt = s.dt := rfl
@[simp] theorem State.raise_st (s : State) (e : Error) : (s.raise e).st = s.st := rfl
@[simp] theorem State.raise_mem (s : State) (e : Error) : (s.raise e).mem = s.mem := rfl
@[simp] theorem State.raise_disp (s : State) (e : Error) : (s.raise e).disp = s.disp := rfl
@[simp] theorem State.raise_tickRef (s : State) (e : Error) : (s.raise e).tickRef = s.tickRef := rfl
@[simp] theorem State.raise_status (s : State) (e : Error) : (s.raise e).status = .halted e := rfl
@[simp] theorem State.raise_cfg (s : State) (e : Error) : (s.raise e).cfg = s.cfg := rfl
@[simp] theorem State.raise_port (s : State) (e : Error) : (s.raise e).port = s.port := rfl
@[simp] theorem State.raise_host (s : State) (e : Error) : (s.raise e).host = s.host := rfl
@[simp] theorem State.raise_draws (s : State) (e : Error) : (s.raise e).draws = s.draws := rfl
@[simp] theorem State.raise_getV (s : State) (e : Error) (y : Reg) : (s.raise e).getV y = s.getV y := rfl
@[simp] theorem State.raise_readByte (s : State) (e : Error) (a : Nat) : (s.raise e).readByte a = s.readByte a := rfl

/-! ### `writeByte` -/

@[simp] theorem State.writeByte_v (s : State) (a : Nat) (b : Byte) : (s.writeByte a b).v = s.v := rfl
@[simp] theorem State.writeByte_i (s : State) (a : Nat) (b : Byte) : (s.writeByte a b).i = s.i := rfl
@[simp] theorem State.writeByte_pc (s : State) (a : Nat) (b : Byte) : (s.writeByte a b).pc = s.pc := rfl
@[simp] theorem State.writeByte_sp (s : State) (a : Nat) (b : Byte) : (s.writeByte a b).sp = s.sp := rfl
@[simp] theorem State.writeByte_stack (s : State) (a : Nat) (b : Byte) : (s.writeByte a b).stack = s.stack := rfl
@[simp] theorem State.writeByte_dt (s : State) (a : Nat) (b : Byte) : (s.writeByte a b).dt = s.dt := rfl
@[simp] theorem State.writeByte_st (s : State) (a : Nat) (b : Byte) : (s.writeByte a b).st = s.st := rfl
@[simp] theorem State.writeByte_mem (s : State) (a : Nat) (b : Byte) : (s.writeByte a b).mem = s.mem.write s.cfg.font (mapAddr a) b := rfl
@[simp] theorem State.writeByte_disp (s : State) (a : Nat) (b : Byte) : (s.writeByte a b).disp = s.disp := rfl
@[simp] theorem State.writeByte_tickRef (s : State) (a : Nat) (b : Byte) : (s.writeByte a b).tickRef = s.tickRef := rfl
@[simp] theorem State.writeByte_status (s : State) (a : Nat) (b : Byte) : (s.writeByte a b).status = s.status := rfl
@[simp] theorem State.writeByte_cfg (s : State) (a : Nat) (b : Byte) : (s.writeByte a b).cfg = s.cfg := rfl
@[simp] theorem State.writeByte_port (s : State) (a : Nat) (b : Byte) : (s.writeByte a b).port = s.port := rfl
@[simp] theorem State.writeByte_host (s : State) (a : Nat) (b : Byte) : (s.writeByte a b).host = s.host := rfl
@[simp] theorem State.writeByte_draws (s : State) (a : Nat) (b : Byte) : (s.writeByte a b).draws = s.draws := rfl
@[simp] theorem State.writeByte_getV (s : State) (a : Nat) (b : Byte) (y : Reg) : (s.writeByte a b).getV y = s.getV y := rfl

/-! ### `setFlagThenV` -/

@[simp] theorem State.setFlagThenV_v (s : State) (x : Reg) (f b : Byte) : (s.setFlagThenV x f b).v = (s.v.set flagReg f).set x b := rfl
@[simp] theorem State.setFlagThenV_i (s : State) (x : Reg) (f b : Byte) : (s.setFlagThenV x f b).i = s.i := rfl
@[simp] theorem State.setFlagThenV_pc (s : State) (x : Reg) (f b : Byte) : (s.setFlagThenV x f b).pc = s.pc := rfl
@[simp] theorem State.setFlagThenV_sp (s : State) (x : Reg) (f b : Byte) : (s.setFlagThenV x f b).sp = s.sp := rfl
@[simp] theorem State.setFlagThenV_stack (s : State) (x : Reg) (f b : Byte) : (s.setFlagThenV x f b).stack = s.stack := rfl
@[simp] theorem State.setFlagThenV_dt (s : State) (x : Reg) (f b : Byte) : (s.setFlagThenV x f b).dt = s.dt := rfl
@[simp] theorem State.setFlagThenV_st (s : State) (x : Reg) (f b : Byte) : (s.setFlagThenV x f b).st = s.st := rfl
@[simp] theorem State.setFlagThenV_mem (s : State) (x : Reg) (f b : Byte) : (s.setFlagThenV x f b).mem = s.mem := rfl
@[simp] theorem State.setFlagThenV_disp (s : State) (x : Reg) (f b : Byte) : (s.setFlagThenV x f b).disp = s.disp := rfl
@[simp] theorem State.setFlagThenV_tickRef (s : State) (x : Reg) (f b : Byte) : (s.setFlagThenV x f b).tickRef = s.tickRef := rfl
@[simp] theorem State.setFlagThenV_status (s : State) (x : Reg) (f b : Byte) : (s.setFlagThenV x f b).status = s.status := rfl
@[simp] theorem State.setFlagThenV_cfg (s : State) (x : Reg) (f b : Byte) : (s.setFlagThenV x f b).cfg = s.cfg := rfl
@[simp] theorem State.setFlagThenV_port (s : State) (x : Reg) (f b : Byte) : (s.setFlagThenV x f b).port = s.port := rfl
@[simp] theorem State.setFlagThenV_host (s : State) (x : Reg) (f b : Byte) : (s.setFlagThenV x f b).host = s.host := rfl
@[simp] theorem State.setFlagThenV_draws (s : State) (x : Reg) (f b : Byte) : (s.setFlagThenV x f b).draws = s.draws := rfl
@[simp] theorem State.setFlagThenV_readByte (s : State) (x : Reg) (f b : Byte) (a : Nat) : (s.setFlagThenV x f b).readByte a = s.readByte a := rfl

/-! ### `loadThrough` -/

@[simp] theorem State.loadThrough_i (s : State) (x : Reg) : (s.loadThrough x).i = s.i := rfl
@[simp] theorem State.loadThrough_pc (s : State) (x : Reg) : (s.loadThrough x).pc = s.pc := rfl
@[simp] theorem State.loadThrough_sp (s : State) (x : Reg) : (s.loadThrough x).sp = s.sp := rfl
@[simp] theorem State.loadThrough_stack (s : State) (x : Reg) : (s.loadThrough x).stack = s.stack := rfl
@[simp] theorem State.loadThrough_dt (s : State) (x : Reg) : (s.loadThrough x).dt = s.dt := rfl
@[simp] theorem State.loadThrough_st (s : State) (x : Reg) : (s.loadThrough x).st = s.st := rfl
@[simp] theorem State.loadThrough_mem (s : State) (x : Reg) : (s.loadThrough x).mem = s.mem := rfl
@[simp] theorem State.loadThrough_disp (s : State) (x : Reg) : (s.loadThrough x).disp = s.disp := rfl
@[simp] theorem State.loadThrough_tickRef (s : State) (x : Reg) : (s.loadThrough x).tickRef = s.tickRef := rfl
@[simp] theorem State.loadThrough_status (s : State) (x : Reg) : (s.loadThrough x).status = s.status := rfl
@[simp] theorem State.loadThrough_cfg (s : State) (x : Reg) : (s.loadThrough x).cfg = s.cfg := rfl
@[simp] theorem State.loadThrough_port (s : State) (x : Reg) : (s.loadThrough x).port = s.port := rfl
@[simp] theorem State.loadThrough_host (s : State) (x : Reg) : (s.loadThrough x).host = s.host := rfl
@[simp] theorem State.loadThrough_draws (s : State) (x : Reg) : (s.loadThrough x).draws = s.draws := rfl
@[simp] theorem State.loadThrough_readByte (s : State) (x : Reg) (a : Nat) : (s.loadThrough x).readByte a = s.readByte a := rfl

/-! ### `clearDisplay` -/

@[simp] theorem State.clearDisplay_v (s : State) : (s.clearDisplay).v = s.v := rfl
@[simp] theorem State.clearDisplay_i (s : State) : (s.clearDisplay).i = s.i := rfl
@[simp] theorem State.clearDisplay_pc (s : State) : (s.clearDisplay).pc = s.pc := rfl
@[simp] theorem State.clearDisplay_sp (s : State) : (s.clearDisplay).sp = s.sp := rfl
@[simp] theorem State.clearDisplay_stack (s : State) : (s.clearDisplay).stack = s.stack := rfl
@[simp] theorem State.clearDisplay_dt (s : State) : (s.clearDisplay).dt = s.dt := rfl
@[simp] theorem State.clearDisplay_st (s : State) : (s.clearDisplay).st = s.st := rfl
@[simp] theorem State.clearDisplay_mem (s : State) : (s.clearDisplay).mem = s.mem := rfl
@[simp] theorem State.clearDisplay_tickRef (s : State) : (s.clearDisplay).tickRef = s.tickRef := rfl
@[simp] theorem State.clearDisplay_status (s : State) : (s.clearDisplay).status = s.status := rfl
@[simp] theorem State.clearDisplay_cfg (s : State) : (s.clearDisplay).cfg = s.cfg := rfl
@[simp] theorem State.clearDisplay_port (s : State) : (s.clearDisplay).port = s.port := rfl
@[simp] theorem State.clearDisplay_host (s : State) : (s.clearDisplay).host = s.host := rfl
@[simp] theorem State.clearDisplay_draws (s : State) : (s.clearDisplay).draws = s.draws := rfl
@[simp] theorem State.clearDisplay_getV (s : State) (y : Reg) : (s.clearDisplay).getV y = s.getV y := rfl
@[simp] theorem State.clearDisplay_readByte (s : State) (a : Nat) : (s.clearDisplay).readByte a = s.readByte a := rfl

/-! ### `draw` -/

@[simp] theorem State.draw_v (s : State) (cs : List SetCall) : (s.draw cs).v = s.v.set flagReg (flagByte (s.disp.run s.midDrain 0 cs).2) := rfl
@[simp] theorem State.draw_i (s : State) (cs : List SetCall) : (s.draw cs).i = s.i := rfl
@[simp] theorem State.draw_pc (s : State) (cs : List SetCall) : (s.draw cs).pc = s.pc := rfl
@[simp] theorem State.draw_sp (s : State) (cs : List SetCall) : (s.draw cs).sp = s.sp := rfl
@[simp] theorem State.draw_stack (s : State) (cs : List SetCall) : (s.draw cs).stack = s.stack := rfl
@[simp] theorem State.draw_dt (s : State) (cs : List SetCall) : (s.draw cs).dt = s.dt := rfl
@[simp] theorem State.draw_st (s : State) (cs : List SetCall) : (s.draw cs).st = s.st := rfl
@[simp] theorem State.draw_mem (s : State) (cs : List SetCall) : (s.draw cs).mem = s.mem := rfl
@[simp] theorem State.draw_disp (s : State) (cs : List SetCall) : (s.draw cs).disp = (s.disp.run s.midDrain 0 cs).1 := rfl
@[simp] theorem State.draw_tickRef (s : State) (cs : List SetCall) : (s.draw cs).tickRef = s.tickRef := rfl
@[simp] theorem State.draw_status (s : State) (cs : List SetCall) : (s.draw cs).status = s.status := rfl
@[simp] theorem State.draw_cfg (s : State) (cs : List SetCall) : (s.draw cs).cfg = s.cfg := rfl
@[simp] theorem State.draw_port (s : State) (cs : List SetCall) : (s.draw cs).port = s.port := rfl
@[simp] theorem State.draw_host (s : State) (cs : List SetCall) : (s.draw cs).host = s.host := rfl
@[simp] theorem State.draw_draws (s : State) (cs : List SetCall) : (s.draw cs).draws = s.draws := rfl
@[simp] theorem State.draw_readByte (s : State) (cs : List SetCall) (a : Nat) : (s.draw cs).readByte a = s.readByte a := rfl

/-! ### `timerUpdate` -/

@[simp] theorem State.timerUpdate_v (s : State) : (s.timerUpdate).v = s.v := rfl
@[simp] theorem State.timerUpdate_i (s : State) : (s.timerUpdate).i = s.i := rfl
@[simp] theorem State.timerUpdate_pc (s : State) : (s.timerUpdate).pc = s.pc := rfl
@[simp] theorem State.timerUpdate_sp (s : State) : (s.timerUpdate).sp = s.sp := rfl
@[simp] theorem State.timerUpdate_stack (s : State) : (s.timerUpdate).stack = s.stack := rfl
@[simp] theorem State.timerUpdate_dt (s : State) : (s.timerUpdate).dt = if s.tickDue then decTimer s.dt else s.dt := rfl
@[simp] theorem State.timerUpdate_st (s : State) : (s.timerUpdate).st = if s.tickDue then decTimer s.st else s.st := rfl
@[simp] theorem State.timerUpdate_mem (s : State) : (s.timerUpdate).mem = s.mem := rfl
@[simp] theorem State.timerUpdate_disp (s : State) : (s.timerUpdate).disp = s.disp := rfl
@[simp] theorem State.timerUpdate_tickRef (s : State) : (s.timerUpdate).tickRef = if s.tickDue then s.port.now else s.tickRef := rfl
@[simp] theorem State.timerUpdate_status (s : State) : (s.timerUpdate).status = s.status := rfl
@[simp] theorem State.timerUpdate_cfg (s : State) : (s.timerUpdate).cfg = s.cfg := rfl
@[simp] theorem State.timerUpdate_port (s : State) : (s.timerUpdate).port = s.port := rfl
@[simp] theorem State.timerUpdate_host (s : State) : (s.timerUpdate).host = s.host := rfl
@[simp] theorem State.timerUpdate_draws (s : State) : (s.timerUpdate).draws = s.draws := rfl
@[simp] theorem State.timerUpdate_getV (s : State) (y : Reg) : (s.timerUpdate).getV y = s.getV y := rfl
@[simp] theorem State.timerUpdate_readByte (s : State) (a : Nat) : (s.timerUpdate).readByte a = s.readByte a := rfl

/-! ### `latch` -/

@[simp] theorem State.latch_v (s : State) (inp : StepInput) : (s.latch inp).v = s.v := rfl
@[simp] theorem State.latch_i (s : State) (inp : StepInput) : (s.latch inp).i = s.i := rfl
@[simp] theorem State.latch_pc (s : State) (inp : StepInput) : (s.latch inp).pc = s.pc := rfl
@[simp] theorem State.latch_sp (s : State) (inp : StepInput) : (s.latch inp).sp = s.sp := rfl
@[simp] theorem State.latch_stack (s : State) (inp : StepInput) : (s.latch inp).stack = s.stack := rfl
@[simp] theorem State.latch_dt (s : State) (inp : StepInput) : (s.latch inp).dt = s.dt := rfl
@[simp] theorem State.latch_st (s : State) (inp : StepInput) : (s.latch inp).st = s.st := rfl
@[simp] theorem State.latch_mem (s : State) (inp : StepInput) : (s.latch inp).mem = s.mem := rfl
@[simp] theorem State.latch_disp (s : State) (inp : StepInput) : (s.latch inp).disp = s.disp := rfl
@[simp] theorem State.latch_tickRef (s : State) (inp : StepInput) : (s.latch inp).tickRef = s.tickRef := rfl
@[simp] theorem State.latch_status (s : State) (inp : StepInput) : (s.latch inp).status = s.status := rfl
@[simp] theorem State.latch_cfg (s : State) (inp : StepInput) : (s.latch inp).cfg = s.cfg := rfl
@[simp] theorem State.latch_host (s : State) (inp : StepInput) : (s.latch inp).host = s.host := rfl
@[simp] theorem State.latch_draws (s : State) (inp : StepInput) : (s.latch inp).draws = s.draws := rfl
@[simp] theorem State.latch_getV (s : State) (inp : StepInput) (y : Reg) : (s.latch inp).getV y = s.getV y := rfl
@[simp] theorem State.latch_readByte (s : State) (inp : StepInput) (a : Nat) : (s.latch inp).readByte a = s.readByte a := rfl

/-! ### `drain` -/

@[simp] theorem State.drain_v (s : State) : (s.drain).v = s.v := rfl
@[simp] theorem State.drain_i (s : State) : (s.drain).i = s.i := rfl
@[simp] theorem State.drain_pc (s : State) : (s.drain).pc = s.pc := rfl
@[simp] theorem State.drain_sp (s : State) : (s.drain).sp = s.sp := rfl
@[simp] theorem State.drain_stack (s : State) : (s.drain).stack = s.stack := rfl
@[simp] theorem State.drain_dt (s : State) : (s.drain).dt = s.dt := rfl
@[simp] theorem State.drain_st (s : State) : (s.drain).st = s.st := rfl
@[simp] theorem State.drain_mem (s : State) : (s.drain).mem = s.mem := rfl
@[simp] theorem State.drain_disp (s : State) : (s.drain).disp = s.disp.drain := rfl
@[simp] theorem State.drain_tickRef (s : State) : (s.drain).tickRef = s.tickRef := rfl
@[simp] theorem State.drain_status (s : State) : (s.drain).status = s.status := rfl
@[simp] theorem State.drain_cfg (s : State) : (s.drain).cfg = s.cfg := rfl
@[simp] theorem State.drain_port (s : State) : (s.drain).port = s.port := rfl
@[simp] theorem State.drain_host (s : State) : (s.drain).host = s.host := rfl
@[simp] theorem State.drain_draws (s : State) : (s.drain).draws = s.draws := rfl
@[simp] theorem State.drain_getV (s : State) (y : Reg) : (s.drain).getV y = s.getV y := rfl
@[simp] theorem State.drain_readByte (s : State) (a : Nat) : (s.drain).readByte a = s.readByte a := rfl

/-! ### Reading a register after a write (R11, R170) -/

@[simp] theorem State.getV_setV (s : State) (x y : Reg) (b : Byte) :
    (s.setV x b).getV y = if y = x then b else s.getV y := by
  simp only [State.getV, State.setV, Fin.getElem_fin, Vector.getElem_set]
  split <;> rename_i h <;> simp [Fin.ext_iff, eq_comm] at h ⊢ <;> simp [h]

@[simp] theorem State.getV_setFlagThenV (s : State) (x y : Reg) (f b : Byte) :
    (s.setFlagThenV x f b).getV y = if y = x then b else if y = flagReg then f else s.getV y := by
  simp only [State.setFlagThenV, State.getV_setV]

@[simp] theorem State.getV_draw (s : State) (cs : List SetCall) (y : Reg) :
    (s.draw cs).getV y = if y = flagReg then flagByte (s.disp.run s.midDrain 0 cs).2 else s.getV y :=
  State.getV_setV _ _ _ _

@[simp] theorem State.getV_loadThrough (s : State) (x y : Reg) :
    (s.loadThrough x).getV y = if y ≤ x then s.readByte (s.base + y.val) else s.getV y := by
  simp only [State.getV, State.loadThrough, Fin.getElem_fin, Vector.getElem_ofFn, Fin.eta]

/-! ### `storeBytes`: nothing but memory -/

theorem State.storeBytes_eq (s : State) (a : Nat) (bs : List Byte) :
    s.storeBytes a bs = { s with mem := (s.storeBytes a bs).mem } := by
  induction bs generalizing s a with
  | nil => rfl
  | cons b bs ih =>
    simp only [State.storeBytes]
    rw [ih]
    rfl

@[simp] theorem State.storeBytes_v (s : State) (a : Nat) (bs : List Byte) : (s.storeBytes a bs).v = s.v := by
  rw [State.storeBytes_eq]
@[simp] theorem State.storeBytes_i (s : State) (a : Nat) (bs : List Byte) : (s.storeBytes a bs).i = s.i := by
  rw [State.storeBytes_eq]
@[simp] theorem State.storeBytes_pc (s : State) (a : Nat) (bs : List Byte) : (s.storeBytes a bs).pc = s.pc := by
  rw [State.storeBytes_eq]
@[simp] theorem State.storeBytes_sp (s : State) (a : Nat) (bs : List Byte) : (s.storeBytes a bs).sp = s.sp := by
  rw [State.storeBytes_eq]
@[simp] theorem State.storeBytes_stack (s : State) (a : Nat) (bs : List Byte) : (s.storeBytes a bs).stack = s.stack := by
  rw [State.storeBytes_eq]
@[simp] theorem State.storeBytes_dt (s : State) (a : Nat) (bs : List Byte) : (s.storeBytes a bs).dt = s.dt := by
  rw [State.storeBytes_eq]
@[simp] theorem State.storeBytes_st (s : State) (a : Nat) (bs : List Byte) : (s.storeBytes a bs).st = s.st := by
  rw [State.storeBytes_eq]
@[simp] theorem State.storeBytes_disp (s : State) (a : Nat) (bs : List Byte) : (s.storeBytes a bs).disp = s.disp := by
  rw [State.storeBytes_eq]
@[simp] theorem State.storeBytes_tickRef (s : State) (a : Nat) (bs : List Byte) : (s.storeBytes a bs).tickRef = s.tickRef := by
  rw [State.storeBytes_eq]
@[simp] theorem State.storeBytes_status (s : State) (a : Nat) (bs : List Byte) : (s.storeBytes a bs).status = s.status := by
  rw [State.storeBytes_eq]
@[simp] theorem State.storeBytes_cfg (s : State) (a : Nat) (bs : List Byte) : (s.storeBytes a bs).cfg = s.cfg := by
  rw [State.storeBytes_eq]
@[simp] theorem State.storeBytes_port (s : State) (a : Nat) (bs : List Byte) : (s.storeBytes a bs).port = s.port := by
  rw [State.storeBytes_eq]
@[simp] theorem State.storeBytes_host (s : State) (a : Nat) (bs : List Byte) : (s.storeBytes a bs).host = s.host := by
  rw [State.storeBytes_eq]
@[simp] theorem State.storeBytes_draws (s : State) (a : Nat) (bs : List Byte) : (s.storeBytes a bs).draws = s.draws := by
  rw [State.storeBytes_eq]
@[simp] theorem State.storeBytes_getV (s : State) (a : Nat) (bs : List Byte) (y : Reg) : (s.storeBytes a bs).getV y = s.getV y :=
  State.getV_congr (State.storeBytes_v s a bs) y

end Sys2Proof.Machine
end

