-- ==== Sys2Proof/Laws/Display.lean ====
section
/-! SUPPORT. The laws of the display buffer: one pixel, `set`, `clear`, `drainUpdates`, and what a sequence of `set` calls or of
pixel clears can do whatever drains fall inside it. -/

namespace Sys2Proof.Machine

/-! ### The grid -/

@[simp] theorem Grid.at_put (g : Grid) (x a : Col) (y b : Row) (v : Bool) :
    (g.put x y v).at a b = if a = x ∧ b = y then v else g.at a b := by
  simp only [Grid.at, Grid.put, Fin.getElem_fin, Vector.getElem_set]
  by_cases hy : y = b
  · subst hy
    by_cases hx : x = a
    · subst hx; simp
    · have : ¬ (x.val = a.val) := fun h => hx (Fin.ext h)
      have h' : ¬ (a = x) := fun h => hx h.symm
      simp [this, h']
  · have : ¬ (y.val = b.val) := fun h => hy (Fin.ext h)
    have h' : ¬ (b = y) := fun h => hy h.symm
    simp [this, h']

@[simp] theorem Grid.at_blank (x : Col) (y : Row) : Grid.blank.at x y = false := by
  simp [Grid.at, Grid.blank]

/-- Two grids with the same bits are the same grid. -/
theorem Grid.ext_at {g h : Grid} (e : ∀ x y, g.at x y = h.at x y) : g = h := by
  apply Vector.ext
  intro j hj
  apply Vector.ext
  intro i hi
  exact e ⟨i, hi⟩ ⟨j, hj⟩

theorem mem_raster (p : Col × Row) : p ∈ raster := by
  simp only [raster, List.mem_flatMap, List.mem_map, List.mem_finRange, true_and]
  exact ⟨p.2, p.1, rfl⟩

/-! ### `set` (R211) -/

/-- A pixel's value after `set`: toggled if it is the addressed pixel and the bit is 1. -/
theorem Display.set_pix (d : Display) (x y : Nat) (bit : Bool) (a : Col) (b : Row) :
    (d.set x y bit).1.pix.at a b = if a = wrapCol x ∧ b = wrapRow y then (d.pix.at a b ^^ bit) else d.pix.at a b := by
  simp only [Display.set, Grid.at_put]
  split
  · next h => rw [h.1, h.2]
  · rfl

/-- A dirty bit after `set`: 1 if the pixel changed, else as before. -/
theorem Display.set_dirty (d : Display) (x y : Nat) (bit : Bool) (a : Col) (b : Row) :
    (d.set x y bit).1.dirty.at a b = if a = wrapCol x ∧ b = wrapRow y ∧ bit = true then true else d.dirty.at a b := by
  simp only [Display.set]
  cases bit <;> simp

theorem Display.set_collision (d : Display) (x y : Nat) (bit : Bool) :
    (d.set x y bit).2 = (d.pix.at (wrapCol x) (wrapRow y) && bit) := by
  simp only [Display.set]
  cases d.pix.at (wrapCol x) (wrapRow y) <;> cases bit <;> rfl

@[simp] theorem Display.set_out (d : Display) (x y : Nat) (bit : Bool) : (d.set x y bit).1.out = d.out := rfl

/-! ### `clear` (R212) -/

@[simp] theorem Display.clear_pix (d : Display) (a : Col) (b : Row) : d.clear.pix.at a b = false := by
  simp [Display.clear]

@[simp] theorem Display.clear_dirty (d : Display) (a : Col) (b : Row) :
    d.clear.dirty.at a b = (d.dirty.at a b || d.pix.at a b) := by
  simp [Display.clear, Grid.at]

@[simp] theorem Display.clear_out (d : Display) : d.clear.out = d.out := rfl

theorem Display.clearPixel_pix (d : Display) (p : Col × Row) (a : Col) (b : Row) :
    (d.clearPixel p).pix.at a b = if a = p.1 ∧ b = p.2 then false else d.pix.at a b := by
  unfold Display.clearPixel
  split
  · simp only [Grid.at_put]
  · next h =>
    split
    · next e => rw [e.1, e.2]; simpa using h
    · rfl

theorem Display.clearPixel_dirty (d : Display) (p : Col × Row) (a : Col) (b : Row) :
    (d.clearPixel p).dirty.at a b = if a = p.1 ∧ b = p.2 ∧ d.pix.at a b = true then true else d.dirty.at a b := by
  unfold Display.clearPixel
  split
  · next h =>
    simp only [Grid.at_put]
    by_cases e : a = p.1 ∧ b = p.2
    · rw [if_pos e, if_pos ⟨e.1, e.2, by rw [e.1, e.2]; exact h⟩]
    · rw [if_neg e, if_neg (fun k => e ⟨k.1, k.2.1⟩)]
  · next h => rw [if_neg]; rintro ⟨rfl, rfl, k⟩; exact h k

/-! ### `drainUpdates` (R214) -/

@[simp] theorem Display.drain_pix (d : Display) : d.drain.pix = d.pix := rfl

@[simp] theorem Display.drain_dirty (d : Display) : d.drain.dirty = Grid.blank := rfl

@[simp] theorem Display.drain_out (d : Display) : d.drain.out = d.updates :: d.out := rfl

/-- A drain returns exactly the dirty pixels, each with its present value. -/
theorem Display.mem_updates (d : Display) (u : PixelUpdate) :
    u ∈ d.updates ↔ d.dirty.at u.x u.y = true ∧ u.on = d.pix.at u.x u.y := by
  simp only [Display.updates, List.mem_map, List.mem_filter]
  constructor
  · rintro ⟨p, ⟨-, h⟩, rfl⟩; exact ⟨h, rfl⟩
  · rintro ⟨h, e⟩; exact ⟨(u.x, u.y), ⟨mem_raster _, h⟩, by cases u; simp_all⟩

/-! ### Sequences, whatever drains fall inside (R219)

A drain changes no pixel value, so the pixels after a sequence and its collision flag do not depend on `mid`. -/

theorem Display.set_pix_congr {d e : Display} (h : d.pix = e.pix) (x y : Nat) (bit : Bool) :
    (d.set x y bit).1.pix = (e.set x y bit).1.pix ∧ (d.set x y bit).2 = (e.set x y bit).2 := by
  simp only [Display.set, h, and_self]

theorem Display.run_pix_congr (mid mid' : Nat → Bool) (k k' : Nat) (cs : List SetCall) {d e : Display}
    (h : d.pix = e.pix) :
    (Display.run mid k cs d).1.pix = (Display.run mid' k' cs e).1.pix ∧
      (Display.run mid k cs d).2 = (Display.run mid' k' cs e).2 := by
  induction cs generalizing d e k k' with
  | nil => exact ⟨h, rfl⟩
  | cons c cs ih =>
    obtain ⟨hp, hc⟩ := Display.set_pix_congr h c.x c.y c.bit
    have hq : (if mid (k + 1) && !cs.isEmpty then (d.set c.x c.y c.bit).1.drain else (d.set c.x c.y c.bit).1).pix
        = (if mid' (k' + 1) && !cs.isEmpty then (e.set c.x c.y c.bit).1.drain else (e.set c.x c.y c.bit).1).pix := by
      split <;> split <;> exact hp
    obtain ⟨h1, h2⟩ := ih (k + 1) (k' + 1) hq
    exact ⟨h1, by simp only [Display.run, hc, h2]⟩

theorem Display.clearPixel_pix_congr {d e : Display} (h : d.pix = e.pix) (p : Col × Row) :
    (d.clearPixel p).pix = (e.clearPixel p).pix := by
  unfold Display.clearPixel
  rw [h]
  split
  · rfl
  · exact h

theorem Display.clearEach_pix_congr (mid mid' : Nat → Bool) (k k' : Nat) (ps : List (Col × Row)) {d e : Display}
    (h : d.pix = e.pix) : (Display.clearEach mid k ps d).pix = (Display.clearEach mid' k' ps e).pix := by
  induction ps generalizing d e k k' with
  | nil => exact h
  | cons p ps ih =>
    refine ih (k + 1) (k' + 1) ?_
    have := Display.clearPixel_pix_congr h p
    split <;> split <;> exact this

/-- No drain falls inside the sequence. -/
def noDrain : Nat → Bool := fun _ => false

theorem Display.run_noDrain_cons (k : Nat) (c : SetCall) (cs : List SetCall) (d : Display) :
    Display.run noDrain k (c :: cs) d =
      ((Display.run noDrain (k + 1) cs (d.set c.x c.y c.bit).1).1,
        (d.set c.x c.y c.bit).2 || (Display.run noDrain (k + 1) cs (d.set c.x c.y c.bit).1).2) := by
  simp only [Display.run, noDrain, Bool.false_and, Bool.false_eq_true, if_false]

theorem Display.run_noDrain_out (k : Nat) (cs : List SetCall) (d : Display) :
    (Display.run noDrain k cs d).1.out = d.out := by
  induction cs generalizing d k with
  | nil => rfl
  | cons c cs ih => rw [Display.run_noDrain_cons]; simp only [ih, Display.set_out]

/-- Under `DRAIN_ATOMICITY = instruction` no drain falls inside an instruction. -/
theorem State.midDrain_instruction {s : State} (h : s.cfg.drainAtomicity = .instruction) : s.midDrain = noDrain := by
  funext k; simp only [State.midDrain, h, noDrain]

/-- Clearing pixel by pixel: the listed pixels end off, the others keep their value. -/
theorem Display.clearEach_pix (mid : Nat → Bool) (k : Nat) (ps : List (Col × Row)) (d : Display) (a : Col) (b : Row) :
    (Display.clearEach mid k ps d).pix.at a b = if (a, b) ∈ ps then false else d.pix.at a b := by
  induction ps generalizing d k with
  | nil => simp [Display.clearEach]
  | cons p ps ih =>
    have hq : ∀ c : Bool, (if c then (d.clearPixel p).drain else d.clearPixel p).pix = (d.clearPixel p).pix := by
      intro c; cases c <;> rfl
    simp only [Display.clearEach, ih, hq, Display.clearPixel_pix, List.mem_cons, Prod.ext_iff]
    by_cases h1 : (a, b) ∈ ps <;> by_cases h2 : a = p.1 ∧ b = p.2 <;> simp [h1, h2]

/-! ### The calls of a sprite (R216, R217) -/

theorem mem_rowCalls (cx cy : Nat) (row : Byte) (c : SetCall) :
    c ∈ rowCalls cx cy row ↔ ∃ j, j < 8 ∧ c = ⟨cx + j, cy, row.getLsbD (7 - j)⟩ := by
  simp only [rowCalls, List.mem_map, List.mem_range, eq_comm]

theorem mem_spriteCalls (cx cy : Nat) (rows : List Byte) (c : SetCall) :
    c ∈ spriteCalls cx cy rows ↔
      ∃ r, ∃ h : r < rows.length, ∃ j, j < 8 ∧ c = ⟨cx + j, cy + r, rows[r].getLsbD (7 - j)⟩ := by
  induction rows generalizing cy with
  | nil => simp [spriteCalls]
  | cons row rows ih =>
    simp only [spriteCalls, List.mem_append, mem_rowCalls, ih]
    constructor
    · rintro (⟨j, hj, rfl⟩ | ⟨r, hr, j, hj, rfl⟩)
      · exact ⟨0, by simp, j, hj, by simp⟩
      · exact ⟨r + 1, by simpa using hr, j, hj, by simp [Nat.add_assoc, Nat.add_comm 1]⟩
    · rintro ⟨r, hr, j, hj, rfl⟩
      cases r with
      | zero => exact .inl ⟨j, hj, by simp⟩
      | succ r => exact .inr ⟨r, by simpa using hr, j, hj, by simp [Nat.add_assoc, Nat.add_comm 1]⟩

end Sys2Proof.Machine
end

