-- ==== Sys2Proof/Laws/Encoding.lean ====
section
/-! SUPPORT. What each field of a word reads in each format (30_encoding.md R101, R102). -/

namespace Sys2Proof

theorem regField_toNat (x : Fin 16) : (regField x).toNat = x.val := rfl

theorem formatNNN_toNat (o : BitVec 4) (nnn : Addr12) : (formatNNN o nnn).toNat = o.toNat * 4096 + nnn.toNat := by
  simp only [formatNNN, BitVec.toNat_append]
  rw [Nat.shiftLeft_eq, Nat.mul_comm, ← Nat.two_pow_add_eq_or_of_lt nnn.isLt]

theorem appendReg_toNat (x : Fin 16) (kk : Byte) : (regField x ++ kk : Addr12).toNat = x.val * 256 + kk.toNat := by
  simp only [BitVec.toNat_append, regField_toNat]
  rw [Nat.shiftLeft_eq, Nat.mul_comm, ← Nat.two_pow_add_eq_or_of_lt kk.isLt]

theorem appendNibble_toNat (y : Fin 16) (f : BitVec 4) : (regField y ++ f : Byte).toNat = y.val * 16 + f.toNat := by
  simp only [BitVec.toNat_append, regField_toNat]
  rw [Nat.shiftLeft_eq, Nat.mul_comm, ← Nat.two_pow_add_eq_or_of_lt f.isLt]

theorem formatXKK_toNat (o : BitVec 4) (x : Reg) (kk : Byte) :
    (formatXKK o x kk).toNat = o.toNat * 4096 + x.val * 256 + kk.toNat := by
  refine (formatNNN_toNat o (regField x ++ kk)).trans ?_
  rw [appendReg_toNat, Nat.add_assoc]

theorem formatX_toNat (o : BitVec 4) (x : Reg) (f : Byte) :
    (formatX o x f).toNat = o.toNat * 4096 + x.val * 256 + f.toNat := formatXKK_toNat o x f

theorem formatXY_toNat (o : BitVec 4) (x y : Reg) (f : BitVec 4) :
    (formatXY o x y f).toNat = o.toNat * 4096 + x.val * 256 + y.val * 16 + f.toNat := by
  refine (formatXKK_toNat o x (regField y ++ f)).trans ?_
  rw [appendNibble_toNat, Nat.add_assoc, Nat.add_assoc, Nat.add_assoc]

/-! ### The fields as numbers -/

theorem fieldTop_toNat (w : Word) : (fieldTop w).toNat = w.toNat / 4096 := by
  simp only [fieldTop, BitVec.extractLsb'_toNat, Nat.shiftRight_eq_div_pow]; have := w.isLt; omega

theorem fieldX_val (w : Word) : (fieldX w).val = w.toNat / 256 % 16 := by
  simp [fieldX, Nat.shiftRight_eq_div_pow]

theorem fieldY_val (w : Word) : (fieldY w).val = w.toNat / 16 % 16 := by
  simp [fieldY, Nat.shiftRight_eq_div_pow]

theorem fieldN_val (w : Word) : (fieldN w).val = w.toNat % 16 := by
  simp [fieldN]

theorem fieldKK_toNat (w : Word) : (fieldKK w).toNat = w.toNat % 256 := by
  simp [fieldKK]

theorem fieldNNN_toNat (w : Word) : (fieldNNN w).toNat = w.toNat % 4096 := by
  simp [fieldNNN]

/-! ### The fields of each format -/

@[simp] theorem fieldTop_formatNNN (o : BitVec 4) (nnn : Addr12) : fieldTop (formatNNN o nnn) = o := by
  apply BitVec.eq_of_toNat_eq; rw [fieldTop_toNat, formatNNN_toNat]; have := nnn.isLt; omega

@[simp] theorem fieldNNN_formatNNN (o : BitVec 4) (nnn : Addr12) : fieldNNN (formatNNN o nnn) = nnn := by
  apply BitVec.eq_of_toNat_eq; rw [fieldNNN_toNat, formatNNN_toNat]; have := nnn.isLt; omega

@[simp] theorem fieldTop_formatXKK (o : BitVec 4) (x : Reg) (kk : Byte) : fieldTop (formatXKK o x kk) = o := by
  apply BitVec.eq_of_toNat_eq; rw [fieldTop_toNat, formatXKK_toNat]; have := kk.isLt; have := x.isLt; omega

@[simp] theorem fieldX_formatXKK (o : BitVec 4) (x : Reg) (kk : Byte) : fieldX (formatXKK o x kk) = x := by
  apply Fin.ext; rw [fieldX_val, formatXKK_toNat]; have := kk.isLt; have := x.isLt; omega

@[simp] theorem fieldKK_formatXKK (o : BitVec 4) (x : Reg) (kk : Byte) : fieldKK (formatXKK o x kk) = kk := by
  apply BitVec.eq_of_toNat_eq; rw [fieldKK_toNat, formatXKK_toNat]; have := kk.isLt; omega

@[simp] theorem fieldTop_formatX (o : BitVec 4) (x : Reg) (f : Byte) : fieldTop (formatX o x f) = o :=
  fieldTop_formatXKK o x f

@[simp] theorem fieldX_formatX (o : BitVec 4) (x : Reg) (f : Byte) : fieldX (formatX o x f) = x :=
  fieldX_formatXKK o x f

@[simp] theorem fieldKK_formatX (o : BitVec 4) (x : Reg) (f : Byte) : fieldKK (formatX o x f) = f :=
  fieldKK_formatXKK o x f

@[simp] theorem fieldTop_formatXY (o : BitVec 4) (x y : Reg) (f : BitVec 4) : fieldTop (formatXY o x y f) = o :=
  fieldTop_formatXKK o x _

@[simp] theorem fieldX_formatXY (o : BitVec 4) (x y : Reg) (f : BitVec 4) : fieldX (formatXY o x y f) = x :=
  fieldX_formatXKK o x _

@[simp] theorem fieldY_formatXY (o : BitVec 4) (x y : Reg) (f : BitVec 4) : fieldY (formatXY o x y f) = y := by
  apply Fin.ext; rw [fieldY_val, formatXY_toNat]; have := f.isLt; have := y.isLt; omega

@[simp] theorem fieldN_formatXY (o : BitVec 4) (x y : Reg) (f : BitVec 4) :
    fieldN (formatXY o x y f) = f.toFin := by
  apply Fin.ext; rw [fieldN_val, formatXY_toNat]; have := f.isLt; simp only [BitVec.val_toFin]; omega

/-! ### A word from its bytes (R70) -/

theorem wordOf_bytes (w : Word) : wordOf (w.extractLsb' 8 8) (w.extractLsb' 0 8) = w := by
  apply BitVec.eq_of_getLsbD_eq
  intro i hi
  simp only [wordOf, BitVec.getLsbD_append, BitVec.getLsbD_extractLsb']
  by_cases h : i < 8
  · simp [h]
  · have : i - 8 < 8 := by omega
    simp [h, this]; congr 1; omega

/-! ### Masks (R104)

A mask of whole nibbles keeps the nibbles it names. -/

theorem mask_F000 (w : Word) : w &&& 0xF000 = formatNNN (fieldTop w) 0 := by
  apply BitVec.eq_of_getLsbD_eq
  intro i hi
  simp only [formatNNN, fieldTop, BitVec.getLsbD_and, BitVec.getLsbD_append, BitVec.getLsbD_extractLsb']
  interval_cases i <;> simp

theorem mask_F00F (w : Word) : w &&& 0xF00F = formatXY (fieldTop w) 0 0 (regField (fieldN w)) := by
  apply BitVec.eq_of_getLsbD_eq
  intro i hi
  simp only [formatXY, regField, fieldN, fieldTop, BitVec.getLsbD_and, BitVec.getLsbD_append,
    BitVec.ofFin_toFin, BitVec.getLsbD_extractLsb']
  interval_cases i <;> simp

theorem mask_F0FF (w : Word) : w &&& 0xF0FF = formatX (fieldTop w) 0 (fieldKK w) := by
  apply BitVec.eq_of_getLsbD_eq
  intro i hi
  simp only [formatX, regField, fieldKK, fieldTop, BitVec.getLsbD_and, BitVec.getLsbD_append, BitVec.getLsbD_extractLsb']
  interval_cases i <;> simp

end Sys2Proof
end

