-- ==== Sys2Proof/Laws/Memory.lean ====
section
/-! SUPPORT. The laws of memory: reading after a write, the canonical form kept by every operation, consecutive stores and reads, and
the range check of `MEM_OOB = fault`. -/

namespace Sys2Proof.Machine

/-! ### One byte -/

theorem mapAddr_lt (a : Nat) : mapAddr a < memSize := Nat.mod_lt _ (by decide)

theorem Memory.read_insert (font : Font) (m : Memory) (a b : Nat) (v : Byte) :
    Memory.read font (Memory.insert a v m) b = if b = a then v else Memory.read font m b := by
  induction m with
  | nil => simp only [Memory.insert, Memory.read, @eq_comm _ b a]
  | cons c m ih =>
    obtain ⟨d, w⟩ := c
    simp only [Memory.insert]
    split
    · simp only [Memory.read, @eq_comm _ b a]
    · split
      · next h => subst h; simp only [Memory.read, @eq_comm _ b a]; split <;> rfl
      · next h => simp only [Memory.read, ih]; split <;> split <;> simp_all

theorem Memory.read_erase (font : Font) (m : Memory) (a b : Nat) :
    Memory.read font (Memory.erase a m) b = if b = a then Memory.unlisted font a else Memory.read font m b := by
  induction m with
  | nil => simp only [Memory.erase, Memory.read]; split <;> simp_all
  | cons c m ih =>
    obtain ⟨d, w⟩ := c
    simp only [Memory.erase]
    split
    · next h => subst h; simp only [ih, Memory.read, @eq_comm _ b d]; split <;> rfl
    · next h => simp only [Memory.read, ih]; split <;> split <;> simp_all

/-- A write changes what its own address reads as, and nothing else. -/
theorem Memory.read_write (font : Font) (m : Memory) (a b : Nat) (v : Byte) :
    Memory.read font (Memory.write font m a v) b = if b = a then v else Memory.read font m b := by
  unfold Memory.write
  split
  · next h => rw [Memory.read_erase, h]
  · exact Memory.read_insert font m a b v

@[simp] theorem State.readByte_writeByte (s : State) (a b : Nat) (v : Byte) :
    (s.writeByte a v).readByte b = if mapAddr b = mapAddr a then v else s.readByte b :=
  Memory.read_write _ _ _ _ _

/-! ### The canonical form -/

/-- The addresses of `m` all lie above `a`. -/
def Memory.above (a : Nat) (m : Memory) : Prop := ∀ c ∈ m, a < c.1

theorem Memory.wf_cons (font : Font) (a : Nat) (w : Byte) (m : Memory) :
    Memory.wf font ((a, w) :: m) = true ↔
      a < memSize ∧ w ≠ Memory.unlisted font a ∧ Memory.above a m ∧ Memory.wf font m = true := by
  simp [Memory.wf, Memory.above, and_assoc]

theorem Memory.above_insert {a b : Nat} {v : Byte} {m : Memory} (hb : b < a) (h : Memory.above b m) :
    Memory.above b (Memory.insert a v m) := by
  induction m with
  | nil => simpa [Memory.insert, Memory.above] using hb
  | cons c m ih =>
    obtain ⟨d, w⟩ := c
    have hd : b < d := h (d, w) (List.mem_cons_self ..)
    have hm : Memory.above b m := fun c hc => h c (List.mem_cons_of_mem _ hc)
    simp only [Memory.insert]
    split
    · intro c hc; rcases List.mem_cons.1 hc with rfl | hc
      · exact hb
      · exact h c hc
    · split
      · intro c hc; rcases List.mem_cons.1 hc with rfl | hc
        · exact hb
        · exact hm c hc
      · intro c hc; rcases List.mem_cons.1 hc with rfl | hc
        · exact hd
        · exact ih hm c hc

theorem Memory.above_erase {a b : Nat} {m : Memory} (h : Memory.above b m) : Memory.above b (Memory.erase a m) := by
  induction m with
  | nil => simp [Memory.erase, Memory.above]
  | cons c m ih =>
    have hm : Memory.above b m := fun c hc => h c (List.mem_cons_of_mem _ hc)
    simp only [Memory.erase]
    split
    · exact ih hm
    · intro c hc; rcases List.mem_cons.1 hc with rfl | hc
      · exact h _ (List.mem_cons_self ..)
      · exact ih hm c hc

theorem Memory.wf_insert {font : Font} {m : Memory} {a : Nat} {v : Byte} (ha : a < memSize)
    (hv : v ≠ Memory.unlisted font a) (h : Memory.wf font m = true) : Memory.wf font (Memory.insert a v m) = true := by
  induction m with
  | nil => simp [Memory.insert, Memory.wf, ha, hv]
  | cons c m ih =>
    obtain ⟨d, w⟩ := c
    have hc := (Memory.wf_cons font d w m).1 h
    obtain ⟨hd, hw, hab, hm⟩ := hc
    simp only [Memory.insert]
    split
    · next hlt =>
      refine (Memory.wf_cons ..).2 ⟨ha, hv, fun c hc => ?_, h⟩
      rcases List.mem_cons.1 hc with rfl | hc
      · exact hlt
      · exact Nat.lt_trans hlt (hab c hc)
    · split
      · next heq => subst heq; exact (Memory.wf_cons ..).2 ⟨ha, hv, hab, hm⟩
      · next hlt hne =>
        exact (Memory.wf_cons ..).2 ⟨hd, hw, Memory.above_insert (by omega) hab, ih hm⟩

theorem Memory.wf_erase {font : Font} {m : Memory} (a : Nat) (h : Memory.wf font m = true) :
    Memory.wf font (Memory.erase a m) = true := by
  induction m with
  | nil => rfl
  | cons c m ih =>
    obtain ⟨d, w⟩ := c
    obtain ⟨hd, hw, hab, hm⟩ := (Memory.wf_cons font d w m).1 h
    simp only [Memory.erase]
    split
    · exact ih hm
    · exact (Memory.wf_cons ..).2 ⟨hd, hw, Memory.above_erase hab, ih hm⟩

/-- A write keeps the canonical form. -/
theorem Memory.wf_write {font : Font} {m : Memory} {a : Nat} (v : Byte) (ha : a < memSize) (h : Memory.wf font m = true) :
    Memory.wf font (Memory.write font m a v) = true := by
  unfold Memory.write
  split
  · exact Memory.wf_erase a h
  · next hv => exact Memory.wf_insert ha hv h

theorem State.wf_writeByte {s : State} (a : Nat) (v : Byte) (h : s.mem.wf s.cfg.font = true) :
    (s.writeByte a v).mem.wf (s.writeByte a v).cfg.font = true :=
  Memory.wf_write v (mapAddr_lt a) h

/-- Consecutive stores keep the canonical form. -/
theorem State.wf_storeBytes {s : State} (a : Nat) (bs : List Byte) (h : s.mem.wf s.cfg.font = true) :
    (s.storeBytes a bs).mem.wf (s.storeBytes a bs).cfg.font = true := by
  induction bs generalizing s a with
  | nil => exact h
  | cons b bs ih => exact ih (a + 1) (State.wf_writeByte a b h)

theorem Memory.above_image (font : Font) (b a : Nat) (bs : List Byte) (h : b < a) :
    Memory.above b (Memory.image font a bs) := by
  induction bs generalizing a with
  | nil => simp [Memory.image, Memory.above]
  | cons v bs ih =>
    simp only [Memory.image]
    split
    · exact ih (a + 1) (by omega)
    · intro c hc; rcases List.mem_cons.1 hc with rfl | hc
      · exact h
      · exact ih (a + 1) (by omega) c hc

/-- The listing of a byte string that fits memory is canonical. -/
theorem Memory.wf_image (font : Font) (a : Nat) (bs : List Byte) (h : a + bs.length ≤ memSize) :
    Memory.wf font (Memory.image font a bs) = true := by
  induction bs generalizing a with
  | nil => rfl
  | cons v bs ih =>
    simp only [List.length_cons] at h
    simp only [Memory.image]
    split
    · exact ih (a + 1) (by omega)
    · next hv => exact (Memory.wf_cons ..).2 ⟨by omega, hv, Memory.above_image font a (a + 1) bs (by omega), ih (a + 1) (by omega)⟩

/-- What a byte string laid out from `a` up reads as. -/
theorem Memory.read_image (font : Font) (a b : Nat) (bs : List Byte) :
    Memory.read font (Memory.image font a bs) b =
      if h : a ≤ b ∧ b - a < bs.length then bs[b - a]'h.2 else Memory.unlisted font b := by
  induction bs generalizing a with
  | nil => simp [Memory.image, Memory.read]
  | cons v bs ih =>
    have step : Memory.read font (Memory.image font a (v :: bs)) b
        = if a = b then v else Memory.read font (Memory.image font (a + 1) bs) b := by
      simp only [Memory.image]
      split
      · next hv =>
        split
        · next hab => subst hab; rw [ih, dif_neg (by omega), hv]
        · rfl
      · rfl
    rw [step]
    by_cases hab : a = b
    · subst hab; simp
    · rw [if_neg hab, ih]
      by_cases hr : a + 1 ≤ b ∧ b - (a + 1) < bs.length
      · rw [dif_pos hr, dif_pos (by simp only [List.length_cons]; omega)]
        have : b - a = b - (a + 1) + 1 := by omega
        simp only [this, List.getElem_cons_succ]
      · rw [dif_neg hr, dif_neg (by simp only [List.length_cons]; omega)]

/-! ### Consecutive bytes (R74, R190) -/

/-- A byte outside the stored range reads as before. -/
theorem State.readByte_storeBytes_other (s : State) (a b : Nat) (bs : List Byte)
    (h : ∀ k, k < bs.length → mapAddr b ≠ mapAddr (a + k)) : (s.storeBytes a bs).readByte b = s.readByte b := by
  induction bs generalizing s a with
  | nil => rfl
  | cons v bs ih =>
    have h0 : mapAddr b ≠ mapAddr a := h 0 (by simp)
    have h1 : ∀ k, k < bs.length → mapAddr b ≠ mapAddr (a + 1 + k) := fun k hk => by
      have := h (k + 1) (by simpa using hk)
      rwa [Nat.add_assoc, Nat.add_comm 1 k]
    simp only [State.storeBytes]
    rw [ih _ _ h1, State.readByte_writeByte, if_neg h0]

/-- The k-th stored byte reads back, for a range no longer than memory. -/
theorem State.readByte_storeBytes (s : State) (a k : Nat) (bs : List Byte) (hl : bs.length ≤ memSize)
    (hk : k < bs.length) : (s.storeBytes a bs).readByte (a + k) = bs[k] := by
  induction bs generalizing s a k with
  | nil => simp at hk
  | cons v bs ih =>
    simp only [List.length_cons] at hl hk
    simp only [State.storeBytes]
    cases k with
    | zero =>
      rw [State.readByte_storeBytes_other]
      · simp
      · intro j hj; simp only [mapAddr, memSize] at *; omega
    | succ k =>
      have : a + (k + 1) = a + 1 + k := by omega
      rw [this, ih _ _ _ (by omega) (by omega)]; simp

@[simp] theorem State.length_readBytes (s : State) (a n : Nat) : (s.readBytes a n).length = n := by
  induction n generalizing a with
  | zero => rfl
  | succ n ih => simp [State.readBytes, ih]

@[simp] theorem State.getElem_readBytes (s : State) (a n k : Nat) (h : k < (s.readBytes a n).length) :
    (s.readBytes a n)[k] = s.readByte (a + k) := by
  induction n generalizing a k with
  | zero => simp [State.readBytes] at h
  | succ n ih =>
    cases k with
    | zero => rfl
    | succ k =>
      simp only [State.readBytes, List.getElem_cons_succ]
      rw [ih]
      congr 1; omega

/-! ### The range check (R72) -/

theorem State.rangeFault_eq_some (s : State) (a len b : Nat) :
    s.rangeFault a len = some b ↔
      s.cfg.memOob = .fault ∧ 0 < len ∧ memSize < a + len ∧ b = max a memSize := by
  unfold State.rangeFault
  cases s.cfg.memOob <;> simp [and_assoc, eq_comm]

theorem State.rangeFault_eq_none (s : State) (a len : Nat) :
    s.rangeFault a len = none ↔ s.cfg.memOob = .wrap ∨ len = 0 ∨ a + len ≤ memSize := by
  unfold State.rangeFault
  cases s.cfg.memOob
  · simp
  · simp; omega

end Sys2Proof.Machine
end

