-- ==== Sys2Proof/Laws/Ops.lean ====
section
/-! SUPPORT. What each shared operation can do, said once: the range guard, the call stack, the keys, the timers, the display. -/

namespace Sys2Proof.Machine

/-! ### The range guard (R72, R190) -/

theorem State.withRange_of_none {s : State} {op : Word} {len : Nat} (k : State) (h : s.rangeFault s.base len = none) :
    s.withRange op len k = k := by simp only [State.withRange, h]

theorem State.withRange_of_some {s : State} {op : Word} {len a : Nat} (k : State)
    (h : s.rangeFault s.base len = some a) :
    s.withRange op len k = s.raise (.ubStop s.pc (some op) (.memoryRange a)) := by simp only [State.withRange, h]

/-- A guarded operation runs, or raises and changes nothing else. -/
theorem State.withRange_cases (s : State) (op : Word) (len : Nat) (k : State) :
    (s.rangeFault s.base len = none ∧ s.withRange op len k = k) ∨
      ∃ a, s.rangeFault s.base len = some a ∧
        s.withRange op len k = s.raise (.ubStop s.pc (some op) (.memoryRange a)) := by
  cases h : s.rangeFault s.base len with
  | none => exact .inl ⟨rfl, State.withRange_of_none k h⟩
  | some a => exact .inr ⟨a, rfl, State.withRange_of_some k h⟩

/-! ### The call stack (R43) -/

/-- A call with room pushes and jumps. -/
theorem State.pushJump_of_lt {s : State} (op v target : Word) (h : s.sp.val < 16) :
    s.pushJump op v target =
      { s with stack := s.stack.set s.sp.val v, sp := ⟨s.sp.val + 1, by omega⟩, pc := target } := by
  simp only [State.pushJump, h, dif_pos]

theorem State.pushJump_of_full {s : State} (op v target : Word) (h : s.sp.val = 16) :
    s.pushJump op v target = s.raise (.stackFault s.pc op .overflow) := by
  simp only [State.pushJump, h, Nat.lt_irrefl, dif_neg, not_false_eq_true]

/-- A return with an entry in use pops and resumes after the call site. -/
theorem State.popJump_of_pos {s : State} (op : Word) (h : 0 < s.sp.val) :
    s.popJump op = { s with sp := ⟨s.sp.val - 1, by omega⟩, pc := s.stack[s.sp.val - 1] + 2 } := by
  simp only [State.popJump, h, dif_pos]

theorem State.popJump_of_empty {s : State} (op : Word) (h : s.sp.val = 0) :
    s.popJump op = s.raise (.stackFault s.pc op .underflow) := by
  simp only [State.popJump, h, Nat.lt_irrefl, dif_neg, not_false_eq_true]

/-! ### Keys (R231 to R233) -/

theorem State.keyPressed_of_lt {s : State} {k : Byte} (h : k.toNat < 16) :
    s.keyPressed k = some (s.port.keys[k.toNat]) := by simp only [State.keyPressed, h, dif_pos]

theorem State.keyPressed_eq_none (s : State) (k : Byte) :
    s.keyPressed k = none ↔ 16 ≤ k.toNat ∧ s.cfg.keyOor = .ubStop := by
  unfold State.keyPressed
  split
  · simp; omega
  · cases s.cfg.keyOor <;> simp; omega

/-! ### Timers (R134, R45) -/

theorem decTimer_toNat (t : Byte) : (decTimer t).toNat = t.toNat - 1 := by
  unfold decTimer
  split
  · next h => subst h; rfl
  · next h =>
    have : t.toNat ≠ 0 := fun e => h (BitVec.eq_of_toNat_eq e)
    have h1 : (1 : Byte).toNat = 1 := rfl
    rw [BitVec.toNat_sub_of_le (BitVec.le_def.2 (by omega)), h1]

theorem State.tickDue_iff (s : State) :
    s.tickDue = true ↔ s.cfg.tickDen * s.tickRef + s.cfg.tickNum ≤ s.cfg.tickDen * s.port.now := by
  simp only [State.tickDue, decide_eq_true_eq]

/-! ### The port (R130) -/

@[simp] theorem State.latch_now (s : State) (inp : StepInput) : (s.latch inp).port.now = max s.port.now inp.now := rfl

@[simp] theorem State.latch_rnd (s : State) (inp : StepInput) : (s.latch inp).port.rnd = inp.rnd := rfl

@[simp] theorem State.latch_keys (s : State) (inp : StepInput) : (s.latch inp).port.keys = inp.keys := rfl

/-- A lawful host's `now` is the one it sends. -/
theorem State.latch_port_of_le {s : State} {inp : StepInput} (h : s.port.now ≤ inp.now) : (s.latch inp).port = inp := by
  simp only [State.latch, Nat.max_eq_right h]

/-! ### The display (R212, R216, R219) -/

/-- `00E0` turns every pixel off, under either policy. -/
theorem State.clearDisplay_pix (s : State) (a : Col) (b : Row) : s.clearDisplay.disp.pix.at a b = false := by
  simp only [State.clearDisplay]
  cases s.cfg.drainAtomicity with
  | instruction => exact Display.clear_pix _ _ _
  | pixel =>
    rw [Display.clearEach_pix, if_pos]
    exact List.mem_append_right _ (mem_raster _)

/-- A call of `set` addresses the pixel. -/
def SetCall.hits (c : SetCall) (a : Col) (b : Row) : Prop := a = wrapCol c.x ∧ b = wrapRow c.y

/-- A pixel that no call addresses keeps its value. -/
theorem Display.run_pix_of_no_hit (mid : Nat → Bool) (k : Nat) (cs : List SetCall) (d : Display) (a : Col) (b : Row)
    (h : ∀ c ∈ cs, ¬ c.hits a b) : (Display.run mid k cs d).1.pix.at a b = d.pix.at a b := by
  induction cs generalizing d k with
  | nil => rfl
  | cons c cs ih =>
    have hc := h c (List.mem_cons_self ..)
    have hq : ∀ e : Bool, (if e then (d.set c.x c.y c.bit).1.drain else (d.set c.x c.y c.bit).1).pix.at a b
        = d.pix.at a b := by
      intro e
      have : (d.set c.x c.y c.bit).1.pix.at a b = d.pix.at a b := by
        rw [Display.set_pix]; exact if_neg hc
      cases e <;> exact this
    exact (ih (k + 1) _ (fun c' hc' => h c' (List.mem_cons_of_mem _ hc'))).trans (hq _)

end Sys2Proof.Machine
end

