-- ==== Sys2Proof/Laws/Engine.lean ====
section
/-! SUPPORT. What one step of the machine can be, said once (`step_cases`), and the laws of fetching and of the host's events. -/

namespace Sys2Proof.Machine

/-! ### The step -/

theorem step_of_cons {s : State} {e : HostEvent} {es : List HostEvent} (h : s.host = e :: es) :
    step s = State.deliver { s with host := es } e := by simp only [step, State.nextEvent, h]

theorem step_of_nil_running {s : State} (h : s.host = []) (hr : s.status = .running) :
    step s = State.runStep { s with draws := s.draws + 1 } (Config.freeInput s.draws) := by
  simp only [step, State.nextEvent, h, State.freeStep, hr]

theorem step_of_nil_not_running {s : State} (h : s.host = []) (hr : s.status ≠ .running) : step s = .next s := by
  simp only [step, State.nextEvent, h, State.freeStep]

theorem State.runStep_running {s : State} (inp : StepInput) (h : s.status = .running) :
    s.runStep inp = (s.latch inp).timerUpdate.fetchExec := by simp only [State.runStep, h]

theorem State.runStep_not_running {s : State} (inp : StepInput) (h : s.status ≠ .running) : s.runStep inp = .next s := by
  simp only [State.runStep]

/-- One step: the pending event if there is one, else a step with free inputs while the core runs, else nothing. -/
theorem step_cases {s t : State} (h : step s = .next t) :
    (∃ e es, s.host = e :: es ∧ State.deliver { s with host := es } e = .next t) ∨
    (s.host = [] ∧ s.status = .running ∧
      State.runStep { s with draws := s.draws + 1 } (Config.freeInput s.draws) = .next t) ∨
    (s.host = [] ∧ s.status ≠ .running ∧ t = s) := by
  obtain hh | ⟨e, es, hh⟩ : s.host = [] ∨ ∃ e es, s.host = e :: es := by cases s.host <;> simp
  · by_cases hr : s.status = .running
    · exact .inr (.inl ⟨hh, hr, (step_of_nil_running hh hr).symm.trans h⟩)
    · rw [step_of_nil_not_running hh hr] at h
      exact .inr (.inr ⟨hh, hr, (Host.Outcome.next.inj h).symm⟩)
  · exact .inl ⟨e, es, hh, (step_of_cons hh).symm.trans h⟩

/-! ### Fetch (R132) -/

/-- Fetching reads memory at PC and nothing else. -/
theorem State.fetch_congr {s t : State} (hm : t.mem = s.mem) (hc : t.cfg = s.cfg) (hp : t.pc = s.pc) : t.fetch = s.fetch := by
  simp only [State.fetch, State.rangeFault, State.readByte, hm, hc, hp]

/-- Fetch, decode and execute, case by case. -/
theorem State.fetchExec_of_error {s : State} {e : Error} (h : s.fetch = .error e) : s.fetchExec = .next (s.raise e) := by
  simp only [State.fetchExec, h]

theorem State.fetchExec_of_instr {s : State} {op : Word} {i : Instr} (h : s.fetch = .ok op) (hd : decodeWord op = some i) :
    s.fetchExec = exec i s := by simp only [State.fetchExec, h, hd]

theorem State.fetchExec_of_illegal {s : State} {op : Word} (h : s.fetch = .ok op) (hd : decodeWord op = none) :
    s.fetchExec = .next (s.illegal op) := by simp only [State.fetchExec, h, hd]

/-! ### Placing a word -/

@[simp] theorem State.placeWord_pc (s : State) (op : Word) : (s.placeWord op).pc = s.pc := by simp [State.placeWord]

@[simp] theorem State.placeWord_cfg (s : State) (op : Word) : (s.placeWord op).cfg = s.cfg := by simp [State.placeWord]

@[simp] theorem State.placeWord_status (s : State) (op : Word) : (s.placeWord op).status = .running := rfl

theorem State.placeWord_readByte (s : State) (op : Word) (a : Nat) :
    (s.placeWord op).readByte a = (s.storeBytes s.pc.toNat [op.extractLsb' 8 8, op.extractLsb' 0 8]).readByte a := rfl

/-! ### Host events (R236, R264, R265) -/

theorem State.press_waitKey {s : State} {x : Reg} (k : Key) (h : s.status = .waitKey x) :
    s.press k = { (s.setV x (BitVec.ofNat 8 k.val)).advance with status := .running } := by simp only [State.press, h]

theorem State.press_of_not_waiting {s : State} (k : Key) (h : ∀ x, s.status ≠ .waitKey x) : s.press k = s := by
  unfold State.press
  split
  · next x hx => exact absurd hx (h x)
  · rfl

/-- A load that fits makes the core of R53 with the ROM in memory. -/
theorem loadRom_of_le (cfg : Config) (t0 : Nat) {rom : List Byte} (h : rom.length ≤ romMax) :
    loadRom cfg t0 rom = .ok (State.fresh cfg t0 (Memory.image cfg.font programBase rom)) := by
  simp only [loadRom, h, if_true]

theorem loadRom_of_gt (cfg : Config) (t0 : Nat) {rom : List Byte} (h : romMax < rom.length) :
    loadRom cfg t0 rom = .error (.romTooLarge rom.length) := by
  simp only [loadRom, Nat.not_le.2 h, if_false]

/-- A load event on a core that may be replaced is the load, with the host's events and draws going on (R284). -/
theorem State.reload_of_ended {s : State} (t0 : Nat) (rom : List Byte) (h : s.status = .stopped ∨ ∃ e, s.status = .halted e) :
    s.reload t0 rom =
      match loadRom s.cfg t0 rom with
      | .ok t => .next { t with host := s.host, draws := s.draws }
      | .error f => .fault f := by
  obtain h | ⟨e, h⟩ := h <;> simp only [State.reload, h] <;> rfl

/-- A load event on a running or waiting core does nothing (R264). -/
theorem State.reload_of_live {s : State} (t0 : Nat) (rom : List Byte) (h : s.status = .running ∨ ∃ x, s.status = .waitKey x) :
    s.reload t0 rom = .next s := by
  obtain h | ⟨x, h⟩ := h <;> simp only [State.reload, h]

/-- The memory of a fresh core with a ROM that fits is canonical. -/
theorem State.wf_fresh_image (cfg : Config) (t0 : Nat) {rom : List Byte} (h : rom.length ≤ romMax) :
    (State.fresh cfg t0 (Memory.image cfg.font programBase rom)).mem.wf cfg.font = true :=
  Memory.wf_image cfg.font programBase rom (by simp only [programBase, romMax, memSize] at *; omega)

end Sys2Proof.Machine
end

