-- ==== Sys2Proof/Laws/Frames.lean ====
section
/-! SUPPORT. The algebra of frames (`SameExcept`) and the frame of each shared operation, and that `exec`, `fetchExec` and `runStep`
always answer a next state. -/

namespace Sys2Proof.Machine

/-! ### Combining frames -/

theorem SameExcept.refl (s : State) (ps : List Part) : SameExcept ps s s := by
  intro p _; cases p <;> simp [Part.same]

theorem Part.same_trans {p : Part} {s t u : State} (h : p.same s t) (k : p.same t u) : p.same s u := by
  cases p <;> simp only [Part.same] at h k ⊢
  case v => exact fun r => (k r).trans (h r)
  case mem => exact fun a => (k a).trans (h a)
  case stack => exact ⟨k.1.trans h.1, k.2.trans h.2⟩
  case boundary =>
    exact ⟨k.1.trans h.1, k.2.1.trans h.2.1, k.2.2.1.trans h.2.2.1, k.2.2.2.trans h.2.2.2⟩
  all_goals exact k.trans h

theorem SameExcept.trans {ps : List Part} {s t u : State} (h : SameExcept ps s t) (k : SameExcept ps t u) :
    SameExcept ps s u := fun p hp => Part.same_trans (h p hp) (k p hp)

theorem SameExcept.mono {ps qs : List Part} {s t : State} (h : SameExcept ps s t) (hs : ps ⊆ qs) : SameExcept qs s t :=
  fun p hp => h p fun h' => hp (hs h')

/-! ### The shared operations -/

theorem SameExcept.jump (s : State) (w : Word) : SameExcept [.pc] s (s.jump w) := by
  intro p hp; cases p <;> simp [Part.same] at hp ⊢

theorem SameExcept.skipIf (s : State) (c : Bool) : SameExcept [.pc] s (s.skipIf c) := by
  intro p hp; cases p <;> simp [Part.same] at hp ⊢

theorem SameExcept.advance (s : State) : SameExcept [.pc] s s.advance := by
  intro p hp; cases p <;> simp [Part.same] at hp ⊢

theorem SameExcept.raise (s : State) (e : Error) : SameExcept [.status] s (s.raise e) := by
  intro p hp; cases p <;> simp [Part.same] at hp ⊢

theorem SameExcept.setV (s : State) (x : Reg) (b : Byte) : SameExcept [.v] s (s.setV x b) := by
  intro p hp; cases p <;> simp [Part.same] at hp ⊢

theorem SameExcept.setFlagThenV (s : State) (x : Reg) (f b : Byte) : SameExcept [.v] s (s.setFlagThenV x f b) := by
  intro p hp; cases p <;> simp [Part.same] at hp ⊢

theorem SameExcept.storeBytes (s : State) (a : Nat) (bs : List Byte) : SameExcept [.mem] s (s.storeBytes a bs) := by
  intro p hp; cases p <;> simp [Part.same] at hp ⊢

theorem SameExcept.loadThrough (s : State) (x : Reg) : SameExcept [.v] s (s.loadThrough x) := by
  intro p hp; cases p <;> simp [Part.same] at hp ⊢

theorem SameExcept.withRange {ps : List Part} {s k : State} (op : Word) (n : Nat) (h : SameExcept ps s k) :
    SameExcept (.status :: ps) s (s.withRange op n k) := by
  unfold State.withRange
  split
  · exact (SameExcept.raise s _).mono (by simp)
  · exact h.mono (by simp)

theorem SameExcept.timerUpdate (s : State) : SameExcept [.dt, .st, .tickRef] s s.timerUpdate := by
  intro p hp; cases p <;> simp [Part.same] at hp ⊢

theorem SameExcept.latch (s : State) (inp : StepInput) : SameExcept [.boundary] s (s.latch inp) := by
  intro p hp; cases p <;> simp [Part.same] at hp ⊢

/-! ### Access ranges (R72, R190) -/

theorem State.rangeFault_of_accessible {s : State} {a len : Nat} (h : s.Accessible a len) : s.rangeFault a len = none := by
  rw [State.rangeFault_eq_none]; exact h

theorem State.rangeFault_of_outOfRange {s : State} {a len b : Nat} (h : s.OutOfRange a len b) : s.rangeFault a len = some b := by
  obtain ⟨h1, h2, h3, h4, h5⟩ := h
  have h6 := h5 (max a 4096) (by omega) (by omega)
  rw [State.rangeFault_eq_some]
  simp only [memSize]
  exact ⟨h1, by omega, by omega, by omega⟩

theorem State.outOfRange_of_rangeFault {s : State} {a len b : Nat} (h : s.rangeFault a len = some b) : s.OutOfRange a len b := by
  obtain ⟨h1, h2, h3, rfl⟩ := (State.rangeFault_eq_some s a len b).1 h
  simp only [memSize] at h3 ⊢
  exact ⟨h1, by omega, by omega, by omega, fun c _ _ => by omega⟩

/-! ### A step of the core always ends in a next state -/

theorem exec_answers (i : Instr) (s : State) : ∃ t, exec i s = .next t := by cases i <;> exact ⟨_, rfl⟩

theorem State.fetchExec_answers (s : State) : ∃ t, s.fetchExec = .next t := by
  unfold State.fetchExec
  split
  · exact ⟨_, rfl⟩
  · split
    · exact exec_answers _ _
    · exact ⟨_, rfl⟩

theorem State.runStep_answers (s : State) (inp : StepInput) : ∃ t, s.runStep inp = .next t := by
  unfold State.runStep
  split
  · exact State.fetchExec_answers _
  · exact ⟨_, rfl⟩

end Sys2Proof.Machine
end

