-- ==== Sys2Proof/Laws/PerInstr.lean ====
section
/-! SUPPORT. Family RowMatch: the word of an instruction belongs to the instruction's own row of the opcode map (30_encoding.md R104,
R105), one lemma per constructor. -/

namespace Sys2Proof.Laws.RowMatch

/-- The encoded word has its row's fixed nibbles. -/
def Statement (i : Instr) : Prop := i.row.admits (encode i)

theorem cls : Statement .cls := rfl

theorem ret : Statement .ret := rfl

theorem jp (nnn : Addr12) : Statement (.jp nnn) := by
  refine (mask_F000 _).trans ?_; simp only [encode, fieldTop_formatNNN]; rfl

theorem call (nnn : Addr12) : Statement (.call nnn) := by
  refine (mask_F000 _).trans ?_; simp only [encode, fieldTop_formatNNN]; rfl

theorem seImm (x : Reg) (kk : Byte) : Statement (.seImm x kk) := by
  refine (mask_F000 _).trans ?_; simp only [encode, fieldTop_formatXKK]; rfl

theorem sneImm (x : Reg) (kk : Byte) : Statement (.sneImm x kk) := by
  refine (mask_F000 _).trans ?_; simp only [encode, fieldTop_formatXKK]; rfl

theorem seReg (x y : Reg) : Statement (.seReg x y) := by
  refine (mask_F00F _).trans ?_; simp only [encode, fieldTop_formatXY, fieldN_formatXY]; rfl

theorem ldImm (x : Reg) (kk : Byte) : Statement (.ldImm x kk) := by
  refine (mask_F000 _).trans ?_; simp only [encode, fieldTop_formatXKK]; rfl

theorem addImm (x : Reg) (kk : Byte) : Statement (.addImm x kk) := by
  refine (mask_F000 _).trans ?_; simp only [encode, fieldTop_formatXKK]; rfl

theorem ldReg (x y : Reg) : Statement (.ldReg x y) := by
  refine (mask_F00F _).trans ?_; simp only [encode, fieldTop_formatXY, fieldN_formatXY]; rfl

theorem orReg (x y : Reg) : Statement (.orReg x y) := by
  refine (mask_F00F _).trans ?_; simp only [encode, fieldTop_formatXY, fieldN_formatXY]; rfl

theorem andReg (x y : Reg) : Statement (.andReg x y) := by
  refine (mask_F00F _).trans ?_; simp only [encode, fieldTop_formatXY, fieldN_formatXY]; rfl

theorem xorReg (x y : Reg) : Statement (.xorReg x y) := by
  refine (mask_F00F _).trans ?_; simp only [encode, fieldTop_formatXY, fieldN_formatXY]; rfl

theorem addReg (x y : Reg) : Statement (.addReg x y) := by
  refine (mask_F00F _).trans ?_; simp only [encode, fieldTop_formatXY, fieldN_formatXY]; rfl

theorem subReg (x y : Reg) : Statement (.subReg x y) := by
  refine (mask_F00F _).trans ?_; simp only [encode, fieldTop_formatXY, fieldN_formatXY]; rfl

theorem shr (x y : Reg) : Statement (.shr x y) := by
  refine (mask_F00F _).trans ?_; simp only [encode, fieldTop_formatXY, fieldN_formatXY]; rfl

theorem subnReg (x y : Reg) : Statement (.subnReg x y) := by
  refine (mask_F00F _).trans ?_; simp only [encode, fieldTop_formatXY, fieldN_formatXY]; rfl

theorem shl (x y : Reg) : Statement (.shl x y) := by
  refine (mask_F00F _).trans ?_; simp only [encode, fieldTop_formatXY, fieldN_formatXY]; rfl

theorem sneReg (x y : Reg) : Statement (.sneReg x y) := by
  refine (mask_F00F _).trans ?_; simp only [encode, fieldTop_formatXY, fieldN_formatXY]; rfl

theorem ldI (nnn : Addr12) : Statement (.ldI nnn) := by
  refine (mask_F000 _).trans ?_; simp only [encode, fieldTop_formatNNN]; rfl

theorem jpV0 (nnn : Addr12) : Statement (.jpV0 nnn) := by
  refine (mask_F000 _).trans ?_; simp only [encode, fieldTop_formatNNN]; rfl

theorem rnd (x : Reg) (kk : Byte) : Statement (.rnd x kk) := by
  refine (mask_F000 _).trans ?_; simp only [encode, fieldTop_formatXKK]; rfl

theorem drw (x y : Reg) (n : Fin 16) : Statement (.drw x y n) := by
  refine (mask_F000 _).trans ?_; simp only [encode, fieldTop_formatXY]; rfl

theorem skp (x : Reg) : Statement (.skp x) := by
  refine (mask_F0FF _).trans ?_; simp only [encode, fieldTop_formatX, fieldKK_formatX]; rfl

theorem sknp (x : Reg) : Statement (.sknp x) := by
  refine (mask_F0FF _).trans ?_; simp only [encode, fieldTop_formatX, fieldKK_formatX]; rfl

theorem ldVxDt (x : Reg) : Statement (.ldVxDt x) := by
  refine (mask_F0FF _).trans ?_; simp only [encode, fieldTop_formatX, fieldKK_formatX]; rfl

theorem ldVxK (x : Reg) : Statement (.ldVxK x) := by
  refine (mask_F0FF _).trans ?_; simp only [encode, fieldTop_formatX, fieldKK_formatX]; rfl

theorem ldDtVx (x : Reg) : Statement (.ldDtVx x) := by
  refine (mask_F0FF _).trans ?_; simp only [encode, fieldTop_formatX, fieldKK_formatX]; rfl

theorem ldStVx (x : Reg) : Statement (.ldStVx x) := by
  refine (mask_F0FF _).trans ?_; simp only [encode, fieldTop_formatX, fieldKK_formatX]; rfl

theorem addI (x : Reg) : Statement (.addI x) := by
  refine (mask_F0FF _).trans ?_; simp only [encode, fieldTop_formatX, fieldKK_formatX]; rfl

theorem ldF (x : Reg) : Statement (.ldF x) := by
  refine (mask_F0FF _).trans ?_; simp only [encode, fieldTop_formatX, fieldKK_formatX]; rfl

theorem ldB (x : Reg) : Statement (.ldB x) := by
  refine (mask_F0FF _).trans ?_; simp only [encode, fieldTop_formatX, fieldKK_formatX]; rfl

theorem storeRegs (x : Reg) : Statement (.storeRegs x) := by
  refine (mask_F0FF _).trans ?_; simp only [encode, fieldTop_formatX, fieldKK_formatX]; rfl

theorem loadRegs (x : Reg) : Statement (.loadRegs x) := by
  refine (mask_F0FF _).trans ?_; simp only [encode, fieldTop_formatX, fieldKK_formatX]; rfl

end Sys2Proof.Laws.RowMatch
end

