-- ==== Sys2Proof/Laws/Sprite.lean ====
section
/-! SUPPORT. What a sequence of `set` calls with distinct target pixels does, and that the calls of a sprite have distinct targets
(44_display.md R216: no pixel is touched twice in one draw). -/

namespace Sys2Proof.Machine

/-- Two calls address different pixels. -/
def SetCall.apart (c c' : SetCall) : Prop := ¬ (wrapCol c.x = wrapCol c'.x ∧ wrapRow c.y = wrapRow c'.y)

/-- Some call of the sequence puts a 1-bit on the pixel. -/
def covered (cs : List SetCall) (a : Col) (b : Row) : Prop := ∃ c ∈ cs, c.hits a b ∧ c.bit = true

theorem SetCall.not_hits_of_apart {c c' : SetCall} {a : Col} {b : Row} (h : c.apart c') (hc : c.hits a b) :
    ¬ c'.hits a b := fun hc' => h ⟨hc.1.symm.trans hc'.1, hc.2.symm.trans hc'.2⟩

theorem covered_cons (c : SetCall) (cs : List SetCall) (a : Col) (b : Row) :
    covered (c :: cs) a b ↔ (c.hits a b ∧ c.bit = true) ∨ covered cs a b := by
  simp only [covered, List.mem_cons, exists_eq_or_imp]

theorem Display.set_pix_of_hit (d : Display) {c : SetCall} {a : Col} {b : Row} (h : c.hits a b) :
    (d.set c.x c.y c.bit).1.pix.at a b = (d.pix.at a b ^^ c.bit) := (Display.set_pix ..).trans (if_pos h)

theorem Display.set_pix_of_not_hit (d : Display) {c : SetCall} {a : Col} {b : Row} (h : ¬ c.hits a b) :
    (d.set c.x c.y c.bit).1.pix.at a b = d.pix.at a b := (Display.set_pix ..).trans (if_neg h)

/-- A drain that may follow a call changes no pixel value. -/
theorem Display.pix_ite_drain (e : Bool) (d : Display) : (if e then d.drain else d).pix = d.pix := by cases e <;> rfl

/-- A pixel covered by a 1-bit is toggled, any other keeps its value, whatever drains fall inside. -/
theorem Display.run_pix (mid : Nat → Bool) (k : Nat) (cs : List SetCall) (d : Display)
    (hcs : cs.Pairwise SetCall.apart) (a : Col) (b : Row) :
    (covered cs a b → (Display.run mid k cs d).1.pix.at a b = !d.pix.at a b) ∧
      (¬ covered cs a b → (Display.run mid k cs d).1.pix.at a b = d.pix.at a b) := by
  induction cs generalizing d k with
  | nil => exact ⟨fun ⟨c, hc, _⟩ => absurd hc (List.not_mem_nil), fun _ => rfl⟩
  | cons c cs ih =>
    obtain ⟨hc, hcs⟩ := List.pairwise_cons.1 hcs
    simp only [Display.run]
    by_cases hit : c.hits a b
    · have hrest : ∀ c' ∈ cs, ¬ c'.hits a b := fun c' h' => SetCall.not_hits_of_apart (hc c' h') hit
      have hno : ¬ covered cs a b := fun ⟨c', h', hh, _⟩ => hrest c' h' hh
      rw [Display.run_pix_of_no_hit _ _ _ _ _ _ hrest, Display.pix_ite_drain, Display.set_pix_of_hit d hit, covered_cons]
      cases hbit : c.bit <;> simp [hit, hno]
    · have hset := Display.set_pix_of_not_hit d hit
      obtain ⟨h1, h2⟩ := ih (k + 1) (if mid (k + 1) && !cs.isEmpty then (d.set c.x c.y c.bit).1.drain
        else (d.set c.x c.y c.bit).1) hcs
      rw [Display.pix_ite_drain, hset] at h1 h2
      rw [covered_cons]
      exact ⟨fun h => h1 (h.resolve_left fun e => hit e.1), fun h => h2 fun e => h (.inr e)⟩

/-- The flag says whether a 1-bit fell on a pixel that was on. -/
theorem Display.run_flag (mid : Nat → Bool) (k : Nat) (cs : List SetCall) (d : Display)
    (hcs : cs.Pairwise SetCall.apart) :
    (Display.run mid k cs d).2 = true ↔ ∃ a b, covered cs a b ∧ d.pix.at a b = true := by
  induction cs generalizing d k with
  | nil => simp [Display.run, covered]
  | cons c cs ih =>
    obtain ⟨hc, hcs⟩ := List.pairwise_cons.1 hcs
    have hq := Display.pix_ite_drain (mid (k + 1) && !cs.isEmpty) (d.set c.x c.y c.bit).1
    simp only [Display.run]
    generalize (if mid (k + 1) && !cs.isEmpty then (d.set c.x c.y c.bit).1.drain else (d.set c.x c.y c.bit).1) = q at hq ⊢
    rw [Bool.or_eq_true, ih _ _ hcs, Display.set_collision, Bool.and_eq_true, hq]
    constructor
    · rintro (⟨h1, h2⟩ | ⟨a, b, h1, h2⟩)
      · exact ⟨_, _, (covered_cons ..).2 (.inl ⟨⟨rfl, rfl⟩, h2⟩), h1⟩
      · refine ⟨a, b, (covered_cons ..).2 (.inr h1), ?_⟩
        obtain ⟨c', h', hh, _⟩ := h1
        rwa [Display.set_pix_of_not_hit d fun hit => SetCall.not_hits_of_apart (hc c' h') hit hh] at h2
    · rintro ⟨a, b, h1, h2⟩
      rcases (covered_cons ..).1 h1 with ⟨⟨rfl, rfl⟩, hb⟩ | h1
      · exact .inl ⟨h2, hb⟩
      · refine .inr ⟨a, b, h1, ?_⟩
        obtain ⟨c', h', hh, _⟩ := h1
        rwa [Display.set_pix_of_not_hit d fun hit => SetCall.not_hits_of_apart (hc c' h') hit hh]

/-- With no drain inside, the covered pixels become dirty and the others keep their dirty bit. -/
theorem Display.run_dirty (k : Nat) (cs : List SetCall) (d : Display) (a : Col) (b : Row) :
    (Display.run noDrain k cs d).1.dirty.at a b = true ↔ covered cs a b ∨ d.dirty.at a b = true := by
  induction cs generalizing d k with
  | nil => simp [Display.run, covered]
  | cons c cs ih =>
    rw [Display.run_noDrain_cons, covered_cons]
    simp only [ih, Display.set_dirty, SetCall.hits, ← and_assoc]
    by_cases h : (a = wrapCol c.x ∧ b = wrapRow c.y) ∧ c.bit = true <;> simp [h]

/-! ### The calls of a sprite -/

theorem wrapCol_val (x : Nat) : (wrapCol x).val = x % 64 := rfl

theorem wrapRow_val (y : Nat) : (wrapRow y).val = y % 32 := rfl

theorem rowCalls_pairwise (cx cy : Nat) (row : Byte) : (rowCalls cx cy row).Pairwise SetCall.apart := by
  unfold rowCalls
  rw [List.pairwise_map]
  refine List.Pairwise.imp_of_mem ?_ (List.pairwise_lt_range (n := 8))
  intro i j hi hj hlt h
  rw [List.mem_range] at hi hj
  have := congrArg Fin.val h.1
  simp only [wrapCol_val] at this
  omega

/-- At most 32 rows touch no pixel twice. -/
theorem spriteCalls_pairwise (cx cy : Nat) (rows : List Byte) (h : rows.length ≤ 32) :
    (spriteCalls cx cy rows).Pairwise SetCall.apart := by
  induction rows generalizing cy with
  | nil => exact .nil
  | cons row rows ih =>
    simp only [List.length_cons] at h
    refine List.pairwise_append.2 ⟨rowCalls_pairwise .., ih _ (by omega), ?_⟩
    intro c hc c' hc' e
    obtain ⟨j, hj, rfl⟩ := (mem_rowCalls ..).1 hc
    obtain ⟨r, hr, j', hj', rfl⟩ := (mem_spriteCalls ..).1 hc'
    have := congrArg Fin.val e.2
    simp only [wrapRow_val] at this
    omega

/-- The calls of `Dxyn` have distinct targets. -/
theorem State.drawCalls_pairwise (s : State) (x y : Reg) (n : Fin 16) : (s.drawCalls x y n).Pairwise SetCall.apart :=
  spriteCalls_pairwise _ _ _ (by rw [State.length_readBytes]; omega)

end Sys2Proof.Machine
end

