-- ==== Sys2Proof/Tests/Slice0.lean ====
section
/-! SUPPORT. Tests: the checks of WellFormed refuse ill-formed terms, words written out from 30_encoding.md R105 decode, and single steps
give the results of spec/95_test_vectors.md, whose vector each comment names. The last part gives every statement that has hypotheses
a state that meets them. -/

namespace Sys2Proof.Tests

open Sys2Proof Sys2Proof.Machine

/-! ### WellFormed refuses -/

theorem test_wf_refuses_zero_period : Config.wf { Config.standard with tickNum := 0 } = false := by decide
theorem test_wf_refuses_zero_denominator : Config.wf { Config.standard with tickDen := 0 } = false := by decide
theorem test_wf_accepts_default : Config.wf Config.standard = true := by decide
theorem test_wf_refuses_pixel_visited_twice :
    StepInput.wf { StepInput.idle 0 with clearOrder := [(3, 4), (10, 20), (3, 4)] } = false := by decide
theorem test_wf_accepts_idle : StepInput.wf (StepInput.idle 0) = true := by decide
/-- E10 -/
theorem test_wf_refuses_long_rom : romWf (List.replicate 3585 0) = false := by
  rw [romWf, List.length_replicate]; decide
/-- E9 -/
theorem test_wf_accepts_longest_rom : romWf (List.replicate 3584 0) = true := by
  rw [romWf, List.length_replicate]; decide

/-! ### Decoding: one word for each row of R105, written out from its fixed nibbles and fields -/

theorem test_decode_cls : decodeWord 0x00E0 = some .cls := by decide
theorem test_decode_ret : decodeWord 0x00EE = some .ret := by decide
theorem test_decode_jp : decodeWord 0x1234 = some (.jp 0x234) := by decide
theorem test_decode_call : decodeWord 0x2FFF = some (.call 0xFFF) := by decide
theorem test_decode_seImm : decodeWord 0x3F01 = some (.seImm 0xF 0x01) := by decide
theorem test_decode_sneImm : decodeWord 0x4312 = some (.sneImm 3 0x12) := by decide
theorem test_decode_seReg : decodeWord 0x5120 = some (.seReg 1 2) := by decide
theorem test_decode_ldImm : decodeWord 0x6A42 = some (.ldImm 0xA 0x42) := by decide
theorem test_decode_addImm : decodeWord 0x7102 = some (.addImm 1 0x02) := by decide
theorem test_decode_ldReg : decodeWord 0x8120 = some (.ldReg 1 2) := by decide
theorem test_decode_orReg : decodeWord 0x8121 = some (.orReg 1 2) := by decide
theorem test_decode_andReg : decodeWord 0x8122 = some (.andReg 1 2) := by decide
theorem test_decode_xorReg : decodeWord 0x8123 = some (.xorReg 1 2) := by decide
theorem test_decode_addReg : decodeWord 0x81F4 = some (.addReg 1 0xF) := by decide
theorem test_decode_subReg : decodeWord 0x8F15 = some (.subReg 0xF 1) := by decide
theorem test_decode_shr : decodeWord 0x81F6 = some (.shr 1 0xF) := by decide
theorem test_decode_subnReg : decodeWord 0x8127 = some (.subnReg 1 2) := by decide
theorem test_decode_shl : decodeWord 0x8F1E = some (.shl 0xF 1) := by decide
theorem test_decode_sneReg : decodeWord 0x9120 = some (.sneReg 1 2) := by decide
theorem test_decode_ldI : decodeWord 0xA2F0 = some (.ldI 0x2F0) := by decide
theorem test_decode_jpV0 : decodeWord 0xB300 = some (.jpV0 0x300) := by decide
theorem test_decode_rnd : decodeWord 0xC30F = some (.rnd 3 0x0F) := by decide
theorem test_decode_drw : decodeWord 0xD125 = some (.drw 1 2 5) := by decide
theorem test_decode_skp : decodeWord 0xE59E = some (.skp 5) := by decide
theorem test_decode_sknp : decodeWord 0xE5A1 = some (.sknp 5) := by decide
theorem test_decode_ldVxDt : decodeWord 0xF307 = some (.ldVxDt 3) := by decide
theorem test_decode_ldVxK : decodeWord 0xF20A = some (.ldVxK 2) := by decide
theorem test_decode_ldDtVx : decodeWord 0xF115 = some (.ldDtVx 1) := by decide
theorem test_decode_ldStVx : decodeWord 0xF118 = some (.ldStVx 1) := by decide
theorem test_decode_addI : decodeWord 0xFF1E = some (.addI 0xF) := by decide
theorem test_decode_ldF : decodeWord 0xF429 = some (.ldF 4) := by decide
theorem test_decode_ldB : decodeWord 0xF033 = some (.ldB 0) := by decide
theorem test_decode_storeRegs : decodeWord 0xFF55 = some (.storeRegs 0xF) := by decide
theorem test_decode_loadRegs : decodeWord 0xF265 = some (.loadRegs 2) := by decide
/-- The illegal words of C20, C23, A35, A36, K8, T8, E1 to E4. -/
theorem test_decode_illegal :
    ([0x5121, 0x9121, 0x8108, 0x800F, 0xE19F, 0xF100, 0x0123, 0x0000, 0xF0FF, 0xFFFF] : List Word).all
      (fun w => decodeWord w = none) = true := by decide
theorem test_decodeBytes_truncated : decodeBytes [0x12] = .error .truncated := rfl
theorem test_decodeTableWord_is_big_endian : decodeTableWord 16 0xD125 = some (.drw 1 2 5) := by decide
theorem test_opcode_rows_are_apart :
    opcodeMap.Pairwise (fun r q => r.pattern &&& q.mask ≠ q.pattern ∧ q.pattern &&& r.mask ≠ r.pattern) := by decide

/-! ### Single steps -/

/-- The reset state with the word `w` at PC and one step with the inputs `inp` requested. -/
def ready (s : State) (w : Nat) (inp : StepInput) : State := { s.withFetchWord 16 w with host := [.step inp] }

/-- The state after that step. -/
def Result.is (r : Result) (p : State → Bool) : Bool :=
  match r with
  | .next t => p t
  | _ => false

/-- The step's result passes `p`. -/
def passes (s : State) (w : Nat) (p : State → Bool) : Bool := Result.is (step (ready s w (StepInput.idle 0))) p

/-- The same at the clock reading `t`. -/
def passesAt (t : Nat) (s : State) (w : Nat) (p : State → Bool) : Bool := Result.is (step (ready s w (StepInput.idle t))) p

/-- The inputs with the keys in `ks` down. -/
def keysDown (ks : List (Fin 16)) : StepInput :=
  { StepInput.idle 0 with keys := Vector.ofFn fun k => ks.contains k }

def reset : State := State.reset

/-- The reset state with the bytes `bs` at 0x300 and I there. -/
def data (bs : List Byte) : State := { reset.storeBytes 0x300 bs with i := 0x300 }

/-- The reset state under `MEM_OOB = fault`. -/
def strict : State := { reset with cfg := { Config.standard with memOob := .fault } }

/-- C1 -/
theorem test_ret : passes { reset with sp := 1, stack := reset.stack.set 0 0x204 } 0x00EE
    (fun t => t.sp = 0 ∧ t.pc = 0x206) = true := by decide
/-- C2 -/
theorem test_ret_empty : passes reset 0x00EE
    (fun t => t.status = .halted (.stackFault 0x200 0x00EE .underflow) ∧ t.pc = 0x200) = true := by decide
/-- C6 -/
theorem test_jp_odd : passes reset 0x1001 (fun t => t.pc = 0x001) = true := by decide
/-- C8 -/
theorem test_call : passes { reset with sp := 15 } 0x2FFF
    (fun t => t.stack[15] = 0x200 ∧ t.sp = 16 ∧ t.pc = 0xFFF) = true := by decide
/-- C9 -/
theorem test_call_full : passes { reset with sp := 16 } 0x2300
    (fun t => t.status = .halted (.stackFault 0x200 0x2300 .overflow) ∧ t.sp = 16) = true := by decide
/-- C14 -/
theorem test_seImm_wraps : passes { reset with pc := 0xFFFC } 0x3000 (fun t => t.pc = 0) = true := by decide
/-- C15 -/
theorem test_sneImm : passes (reset.setV 3 0x12) 0x4312 (fun t => t.pc = 0x202) = true := by decide
/-- C18 -/
theorem test_seReg : passes ((reset.setV 1 7).setV 2 8) 0x5120 (fun t => t.pc = 0x202) = true := by decide
/-- C21 -/
theorem test_sneReg : passes ((reset.setV 1 7).setV 2 8) 0x9120 (fun t => t.pc = 0x204) = true := by decide
/-- C25 -/
theorem test_jpV0_past_memory : passes (reset.setV 0 0xFF) 0xBFFF (fun t => t.pc = 0x10FE) = true := by decide
/-- A1 -/
theorem test_ldImm : passes reset 0x6A42 (fun t => t.getV 0xA = 0x42 ∧ t.pc = 0x202) = true := by decide
/-- A3 -/
theorem test_addImm_no_flag : passes ((reset.setV 1 0xFF).setV 0xF 0x55) 0x7102
    (fun t => t.getV 1 = 1 ∧ t.getV 0xF = 0x55) = true := by decide
/-- A6 -/
theorem test_ldReg : passes (reset.setV 2 9) 0x8120 (fun t => t.getV 1 = 9 ∧ t.getV 2 = 9) = true := by decide
/-- A8 -/
theorem test_orReg : passes (((reset.setV 1 0x0F).setV 2 0xF0).setV 0xF 0x77) 0x8121
    (fun t => t.getV 1 = 0xFF ∧ t.getV 0xF = 0x77) = true := by decide
/-- A9 -/
theorem test_andReg : passes ((reset.setV 1 0x3C).setV 2 0x0F) 0x8122 (fun t => t.getV 1 = 0x0C) = true := by decide
/-- A10 -/
theorem test_xorReg : passes ((reset.setV 1 0xFF).setV 2 0x0F) 0x8123 (fun t => t.getV 1 = 0xF0) = true := by decide
/-- A17 -/
theorem test_addReg_y_is_flag : passes ((reset.setV 1 0x10).setV 0xF 0xF0) 0x81F4
    (fun t => t.getV 1 = 0 ∧ t.getV 0xF = 1) = true := by decide
/-- A18 -/
theorem test_addReg_x_is_flag : passes ((reset.setV 0xF 1).setV 1 0xFF) 0x8F14 (fun t => t.getV 0xF = 0) = true := by decide
/-- A20 -/
theorem test_subReg_equal : passes (((reset.setV 1 5).setV 2 5).setV 0xF 1) 0x8125
    (fun t => t.getV 1 = 0 ∧ t.getV 0xF = 0) = true := by decide
/-- A22 -/
theorem test_subReg_x_is_flag : passes ((reset.setV 0xF 5).setV 1 7) 0x8F15 (fun t => t.getV 0xF = 0xFE) = true := by decide
/-- A25 -/
theorem test_shr_ignores_y : passes ((reset.setV 1 5).setV 0xF 0x80) 0x81F6
    (fun t => t.getV 1 = 2 ∧ t.getV 0xF = 1) = true := by decide
/-- A27 -/
theorem test_subnReg : passes ((reset.setV 1 3).setV 2 0x0A) 0x8127 (fun t => t.getV 1 = 7 ∧ t.getV 0xF = 1) = true := by decide
/-- A29 -/
theorem test_subnReg_borrow : passes (((reset.setV 1 0x0A).setV 2 3).setV 0xF 1) 0x8127
    (fun t => t.getV 1 = 0xF9 ∧ t.getV 0xF = 0) = true := by decide
/-- A31 -/
theorem test_shl : passes (reset.setV 1 0x81) 0x810E (fun t => t.getV 1 = 2 ∧ t.getV 0xF = 1) = true := by decide
/-- A34 -/
theorem test_shl_x_is_flag : passes (reset.setV 0xF 0xC0) 0x8FFE (fun t => t.getV 0xF = 0x80) = true := by decide
/-- A37 -/
theorem test_rnd : Result.is (step (ready reset 0xC30F { StepInput.idle 0 with rnd := 0xB7 })) (fun t => t.getV 3 = 7) = true := by
  decide
/-- M2 -/
theorem test_ldI : passes reset 0xAFFF (fun t => t.i = 0xFFF) = true := by decide
/-- M4 -/
theorem test_addI_past_memory : passes ({ reset with i := 0xFFF }.setV 2 1) 0xF21E (fun t => t.i = 0x1000) = true := by decide
/-- M5 -/
theorem test_addI_wraps : passes ({ reset with i := 0xFFFF }.setV 2 1) 0xF21E (fun t => t.i = 0) = true := by decide
/-- M10 -/
theorem test_ldF_not_reduced : passes (reset.setV 4 0xFF) 0xF429 (fun t => t.i = 0x4FB) = true := by decide
/-- M15 -/
theorem test_ldB_wraps : passes ({ reset with i := 0xFFE }.setV 0 0x7B) 0xF033
    (fun t => t.readByte 0xFFE = 1 ∧ t.readByte 0xFFF = 2 ∧ t.readByte 0x000 = 3) = true := by decide
/-- M16 -/
theorem test_storeRegs : passes (((data []).setV 0 1).setV 1 2) 0xF155
    (fun t => t.readByte 0x300 = 1 ∧ t.readByte 0x301 = 2 ∧ t.readByte 0x302 = 0 ∧ t.i = 0x300) = true := by decide
/-- M19 -/
theorem test_loadRegs : passes (data [7, 8, 9, 5]) 0xF265
    (fun t => t.getV 0 = 7 ∧ t.getV 1 = 8 ∧ t.getV 2 = 9 ∧ t.getV 3 = 0 ∧ t.i = 0x300) = true := by decide
/-- M21 -/
theorem test_loadRegs_wraps : passes { reset with i := 0x1000 } 0xF065 (fun t => t.getV 0 = 0xF0) = true := by decide
/-- D2 -/
theorem test_drw_collision :
    passes { data [0xC0] with disp := ((Display.fresh.set 0 0 true).1.set 1 0 true).1 } 0xD011
      (fun t => !t.disp.pix.at 0 0 ∧ !t.disp.pix.at 1 0 ∧ t.disp.dirty.at 0 0 ∧ t.getV 0xF = 1) = true := by decide
/-- D11 -/
theorem test_cls : passes { reset with disp := { Display.fresh with pix := Grid.blank.put 3 4 true } } 0x00E0
    (fun t => !t.disp.pix.at 3 4 ∧ t.disp.dirty.at 3 4 ∧ !t.disp.dirty.at 4 3 ∧ t.pc = 0x202) = true := by decide
/-- K1 -/
theorem test_skp : Result.is (step (ready (reset.setV 5 0x0A) 0xE59E (keysDown [0xA]))) (fun t => t.pc = 0x204) = true := by decide
/-- X9 -/
theorem test_skp_low_nibble :
    Result.is (step (ready ({ reset with cfg := { Config.standard with keyOor := .lowNibble } }.setV 5 0x1A) 0xE59E (keysDown [0xA])))
      (fun t => t.pc = 0x204) = true := by decide
/-- K6 -/
theorem test_sknp_no_such_key : Result.is (step (ready (reset.setV 5 0x1A) 0xE5A1 (keysDown (List.finRange 16))))
    (fun t => t.pc = 0x204) = true := by decide
/-- X10 -/
theorem test_sknp_stops :
    passes ({ reset with cfg := { Config.standard with keyOor := .ubStop } }.setV 5 0x1A) 0xE5A1
      (fun t => t.status = .halted (.ubStop 0x200 (some 0xE5A1) (.keyIndex 0x1A)) ∧ t.pc = 0x200) = true := by decide
/-- T2 -/
theorem test_ldVxDt_before_tick : passesAt 16 { reset with dt := 0x20 } 0xF307 (fun t => t.getV 3 = 0x20) = true := by decide
/-- T3 -/
theorem test_ldVxDt_after_tick : passesAt 17 { reset with dt := 0x20 } 0xF307
    (fun t => t.getV 3 = 0x1F ∧ t.dt = 0x1F ∧ t.tickRef = 17) = true := by decide
/-- K9 -/
theorem test_ldVxK : passes { reset with pc := 0x210 } 0xF20A
    (fun t => t.status = .waitKey 2 ∧ t.pc = 0x210 ∧ t.getV 2 = 0) = true := by decide
/-- K10 -/
theorem test_press : Result.is (step { reset with pc := 0x210, status := .waitKey 2, host := [.press 7] })
    (fun t => t.getV 2 = 7 ∧ t.pc = 0x212 ∧ t.status = .running) = true := by decide
/-- T6 -/
theorem test_ldDtVx_after_tick : passesAt 20 ({ reset with dt := 0x10 }.setV 1 0x3C) 0xF115
    (fun t => t.dt = 0x3C ∧ t.tickRef = 20) = true := by decide
/-- T7 -/
theorem test_ldStVx : passes (reset.setV 1 5) 0xF118 (fun t => t.st = 5 ∧ t.dt = 0) = true := by decide
/-- T8 -/
theorem test_illegal_keeps_timer_update : passesAt 17 { reset with st := 1 } 0xF100
    (fun t => t.st = 0 ∧ t.tickRef = 17 ∧ t.status = .halted (.decodeError 0x200 0xF100)) = true := by decide
/-- E5 -/
theorem test_fetch_wraps : Result.is (step { reset.writeByte 0xFFF 0x12 with pc := 0xFFF, host := [.step (StepInput.idle 0)] })
    (fun t => t.pc = 0x2F0) = true := by decide
/-- X1 -/
theorem test_ldB_stops_out_of_range : passes ({ strict with i := 0xFFE }.setV 0 0x7B) 0xF033
    (fun t => t.status = .halted (.ubStop 0x200 (some 0xF033) (.memoryRange 0x1000)) ∧ t.readByte 0xFFE = 0) = true := by decide
/-- X3 -/
theorem test_fetch_stops_out_of_range : Result.is (step { strict with pc := 0xFFF, host := [.step (StepInput.idle 0)] })
    (fun t => t.status = .halted (.ubStop 0xFFF none (.memoryRange 0x1000))) = true := by decide
/-- X6 -/
theorem test_sys_nop : passes { reset with cfg := { Config.standard with sys := .nop } } 0x0123
    (fun t => t.pc = 0x202 ∧ t.status = .running) = true := by decide
/-- D3 and X11 -/
theorem test_pixel_drain_inside_draw :
    Result.is (step (ready ({ data [0xFF] with cfg := { Config.standard with drainAtomicity := .pixel } }.setV 0 60) 0xD011
        { StepInput.idle 0 with drains := [4] }))
      (fun t => t.disp.pix.at 60 0 ∧ t.disp.pix.at 3 0 ∧ !t.disp.pix.at 59 0 ∧ !t.disp.pix.at 4 0 ∧ t.disp.dirty.at 3 0
        ∧ !t.disp.dirty.at 63 0 ∧ t.disp.out.length = 1) = true := by decide
/-- X12 -/
theorem test_other_period :
    passesAt 31 { reset with dt := 2, cfg := { Config.standard with tickNum := 32, tickDen := 1 } } 0x1200 (fun t => t.dt = 2) ∧
    passesAt 32 { reset with dt := 2, cfg := { Config.standard with tickNum := 32, tickDen := 1 } } 0x1200 (fun t => t.dt = 1) := by
  decide
/-- E7: nothing is loaded, so the first step meets the zero word; it holds whatever the free inputs are. -/
theorem test_reset_first_step : Result.is (step reset) (fun t => t.status = .halted (.decodeError 0x200 0x0000)) = true := by decide
/-- A3 with no host event pending: the word placed at PC runs, whatever the free inputs are. -/
theorem test_withFetchWord_runs : Result.is (step ((reset.setV 1 0xFF).withFetchWord 16 0x7102))
    (fun t => t.getV 1 = 1 ∧ t.pc = 0x202) = true := by decide
/-- E10 -/
theorem test_load_too_large : (loadRom Config.standard 0 (List.replicate 3585 0)) = .error (.romTooLarge 3585) := by
  rw [loadRom, List.length_replicate]; exact if_neg (by decide)
/-- P0: the ROM bytes lie at 0x200, high byte first. -/
theorem test_load_places_rom : Result.is (step { reset with status := .stopped, host := [.load 7 [0x60, 0x05, 0x00, 0xE0]] })
    (fun t => t.wordAtPc = 0x6005 ∧ t.readByte 0x203 = 0xE0 ∧ t.tickRef = 7 ∧ t.status = .running) = true := by decide

/-! ### Every statement's hypotheses are met

One theorem per statement that has hypotheses, or one per clause, at values where clauses meet. -/

/-- The state in which the step of `ready s w inp` fetches. -/
def begun (s : State) (w : Nat) (inp : StepInput) : State :=
  (State.latch { ready s w inp with host := [] } inp).timerUpdate

theorem begins (s : State) (w : Nat) (inp : StepInput) : (ready s w inp).BeginsStep (begun s w inp) :=
  ⟨rfl, .inl ⟨inp, [], rfl, rfl⟩⟩

/-- The reset state with the word `w` at PC and no host event pending. -/
def alone (w : Nat) : State := reset.withFetchWord 16 w

theorem begins_alone (w : Nat) : (alone w).BeginsStep
    (State.latch { alone w with draws := (alone w).draws + 1 } (Config.freeInput (alone w).draws)).timerUpdate :=
  ⟨rfl, .inr ⟨rfl, rfl⟩⟩

theorem wrap_accessible (a len : Nat) : reset.Accessible a len := .inl rfl

theorem strict_accessible_to_the_end : strict.Accessible 0xFFE 2 ∧ ¬ strict.Accessible 0xFFF 2 := by
  constructor
  · exact .inr (.inr (by decide))
  · rintro (h | h | h)
    · exact absurd h (by decide)
    · exact absurd h (by decide)
    · exact absurd h (by decide)

theorem witness_EncodeInvertsDecode : decodeWord 0xD125 = some (.drw 1 2 5) ∧ encode (.drw 1 2 5) = 0xD125 := by decide

theorem witness_OpcodeRowsPartitionTheWords :
    (opcodeMap[(22 : Fin 34)]).admits 0xD125 ∧ (Instr.drw 1 2 5).rowNumber = 22 := ⟨rfl, rfl⟩

/-- Both sides of each line of the table of R107. -/
theorem witness_IllegalWordsByTopNibble :
    ([0x00DF, 0x00EF, 0x0FFF, 0x5001, 0x8008, 0x800D, 0x800F, 0x9FFF, 0xE09D, 0xEFFF, 0xF006, 0xFF66] : List Word).all
      (fun w => decodeWord w = none) = true ∧
    ([0x00E0, 0x00EE, 0x5000, 0x8007, 0x800E, 0x9FF0, 0xE09E, 0xEFA1, 0xF007, 0xFF65] : List Word).all
      (fun w => decodeWord w ≠ none) = true := by decide

theorem witness_StepRunsTheDecodedInstruction :
    (∃ s u i, State.BeginsStep s u ∧ s.Accessible s.pc.toNat 2 ∧ decodeWord s.wordAtPc = some i ∧ s.host ≠ []) ∧
    (∃ s u i, State.BeginsStep s u ∧ s.Accessible s.pc.toNat 2 ∧ decodeWord s.wordAtPc = some i ∧ s.host = []) :=
  ⟨⟨_, _, .jp 0x234, begins reset 0x1234 (StepInput.idle 17), .inl rfl, by decide, by decide⟩,
   ⟨_, _, .jp 0x234, begins_alone 0x1234, .inl rfl, by decide, by decide⟩⟩

/-- The last PC at which a fetch is accessible under `fault`, and one past memory under `wrap`. -/
theorem witness_PlacedWordIsFetchedNext :
    State.Accessible { strict with pc := 0xFFE } 0xFFE 2 ∧ State.Accessible { reset with pc := 0xFFFF } 0xFFFF 2 :=
  ⟨.inr (.inr (by decide)), .inl rfl⟩

theorem witness_UnmatchedWordHaltsOrIsSys :
    (∃ s u, State.BeginsStep s u ∧ s.Accessible s.pc.toNat 2 ∧ decodeWord s.wordAtPc = none ∧ s.cfg.sys = .nop ∧
      s.wordAtPc.toNat < 4096) ∧
    (∃ s u, State.BeginsStep s u ∧ s.Accessible s.pc.toNat 2 ∧ decodeWord s.wordAtPc = none ∧ s.cfg.sys = .decodeError ∧
      s.wordAtPc.toNat < 4096) ∧
    (∃ s u, State.BeginsStep s u ∧ s.Accessible s.pc.toNat 2 ∧ decodeWord s.wordAtPc = none ∧ s.cfg.sys = .nop ∧
      4096 ≤ s.wordAtPc.toNat) :=
  ⟨⟨_, _, begins { reset with cfg := { Config.standard with sys := .nop } } 0x0FFF (StepInput.idle 0), .inl rfl, by decide, rfl,
     by decide⟩,
   ⟨_, _, begins reset 0x0FFF (StepInput.idle 0), .inl rfl, by decide, rfl, by decide⟩,
   ⟨_, _, begins { reset with cfg := { Config.standard with sys := .nop } } 0x5001 (StepInput.idle 0), .inl rfl, by decide, rfl,
     by decide⟩⟩

theorem witness_FetchWrapsOrStops :
    State.cfg { reset with pc := 0xFFF } = Config.standard ∧
    (∃ s : State, s.cfg.memOob = .fault ∧ s.pc.toNat = 0x0FFE) ∧
    (∃ s u, State.BeginsStep s u ∧ s.cfg.memOob = .fault ∧ s.pc.toNat = 0x0FFF) :=
  ⟨rfl, ⟨{ strict with pc := 0xFFE }, rfl, rfl⟩,
   ⟨_, _, begins { strict with pc := 0xFFF } 0x1200 (StepInput.idle 0), rfl, rfl⟩⟩

/-- T2 and T3: 16 ms are short of the period, 17 ms are not. -/
theorem witness_TimerUpdateOpensEveryStep :
    (∃ s u, State.BeginsStep s u ∧ s.cfg.wf = true ∧ (s.cfg.tickNum : ℚ) / s.cfg.tickDen ≤ (u.port.now : ℚ) - s.tickRef) ∧
    (∃ s u, State.BeginsStep s u ∧ s.cfg.wf = true ∧ (u.port.now : ℚ) - s.tickRef < (s.cfg.tickNum : ℚ) / s.cfg.tickDen) := by
  refine ⟨⟨_, _, begins reset 0x1200 (StepInput.idle 17), by decide, ?_⟩,
    ⟨_, _, begins reset 0x1200 (StepInput.idle 16), by decide, ?_⟩⟩
  · change ((50 : ℕ) : ℚ) / ((3 : ℕ) : ℚ) ≤ ((17 : ℕ) : ℚ) - ((0 : ℕ) : ℚ); norm_num
  · change ((16 : ℕ) : ℚ) - ((0 : ℕ) : ℚ) < ((50 : ℕ) : ℚ) / ((3 : ℕ) : ℚ); norm_num

theorem not_load (s : State) (w : Nat) (inp : StepInput) : ¬ (ready s w inp).LoadIsNext := by
  rintro ⟨_, _, _, h⟩; exact absurd (List.cons.inj h).1 (by simp)

theorem witness_TimersFallByAtMostOnePerStep :
    (∃ t, step (ready { reset with dt := 1 } 0x1200 (StepInput.idle 17)) = .next t) ∧
    ¬ (ready { reset with dt := 1 } 0x1200 (StepInput.idle 17)).LoadIsNext ∧
    decodeWord (ready { reset with dt := 1 } 0x1200 (StepInput.idle 17)).wordAtPc = some (.jp 0x200) :=
  ⟨⟨_, rfl⟩, not_load _ _ _, by decide⟩

theorem witness_NoStepOutsideRunning :
    (∃ s : State, s.status ≠ .running ∧ s.host = [.step (StepInput.idle 17)]) ∧
    (∃ s t x, s.status = .waitKey x ∧ step s = .next t) ∧
    (∃ s t, s.status = .stopped ∧ ¬ s.LoadIsNext ∧ step s = .next t) ∧
    (∃ s t e, s.status = .halted e ∧ ¬ s.LoadIsNext ∧ step s = .next t) :=
  ⟨⟨{ ready reset 0x1200 (StepInput.idle 17) with status := .waitKey 3 }, by decide, rfl⟩,
   ⟨{ reset with status := .waitKey 3, host := [.press 5] }, _, 3, rfl, rfl⟩,
   ⟨{ reset with status := .stopped, host := [.drain] }, _, rfl, by rintro ⟨_, _, _, h⟩; exact absurd h (by simp), rfl⟩,
   ⟨{ reset with status := .halted (.decodeError 0 0), host := [.cancel] }, _, _, rfl,
     by rintro ⟨_, _, _, h⟩; exact absurd h (by simp), rfl⟩⟩

theorem witness_RaisingStepChangesNothingElse :
    ∃ s u t e, State.BeginsStep s u ∧ step s = .next t ∧ t.status = .halted e ∧ u.st ≠ s.st :=
  ⟨_, _, _, _, begins { reset with st := 1 } 0x00EE (StepInput.idle 17), rfl, rfl, by decide⟩

theorem witness_StackFaultsAreExplicit :
    (∃ s : State, s.sp.val = 16) ∧ reset.sp.val = 0 ∧
    (∃ t, State.NotHalted { reset with sp := 16 } ∧ exec (.call 0x300) { reset with sp := 16 } = .next t ∧
      t.status = .halted (.stackFault 0x200 0x2300 .overflow)) ∧
    (∃ t, reset.NotHalted ∧ exec .ret reset = .next t ∧ t.status = .halted (.stackFault 0x200 0x00EE .underflow)) :=
  ⟨⟨{ reset with sp := 16 }, rfl⟩, rfl, ⟨_, fun _ => Status.noConfusion, rfl, by decide⟩,
   ⟨_, fun _ => Status.noConfusion, rfl, by decide⟩⟩

theorem witness_CanonicalMemoryIsItsReads :
    Memory.wf Font.common [(0x000, 0x00), (0x300, 0x07)] = true ∧ Memory.wf Font.common [(0x300, 0x00)] = false ∧
    Memory.wf Font.common [(0x301, 0x01), (0x300, 0x07)] = false := by decide

/-- A store over the end of memory, into the word at 0x000. -/
theorem witness_StoredBytesAreTheNextWord :
    ∃ (s : State) (x k l : Reg), s.cfg.memOob = .wrap ∧ l.val = k.val + 1 ∧ l ≤ x ∧
      mapAddr (s.i.toNat + k.val) = mapAddr (s.pc + 2).toNat :=
  ⟨{ reset with pc := 0xFFD, i := 0xFFF }, 15, 0, 1, rfl, rfl, by decide, by decide⟩

theorem witness_CallPushesItsOwnAddress :
    State.sp reset < 16 ∧ State.sp { reset with sp := 15 } < 16 ∧ (State.sp { reset with sp := 16 }).val = 16 := by decide

theorem witness_ReturnResumesAfterTheCallSite :
    (State.sp { reset with sp := 1 }).val = (0 : Fin 16).val + 1 ∧ (State.sp { reset with sp := 16 }).val = (15 : Fin 16).val + 1 ∧
    (State.sp reset).val = 0 := by decide

/-- W6 -/
theorem witness_CallThenReturnComesBack :
    ∃ (s : State) (nnn : Addr12) (a b : StepInput) (es : List HostEvent),
      s.status = .running ∧ s.host = .step a :: .step b :: es ∧ s.cfg.memOob = .wrap ∧ s.sp.val < 16 ∧
      s.wordAtPc = encode (.call nnn) ∧ State.wordAtPc { s with pc := nnn.setWidth 16 } = 0x00EE :=
  ⟨{ (alone 0x2300).storeBytes 0x300 [0x00, 0xEE] with
      sp := 15, host := [.step (StepInput.idle 0), .step (StepInput.idle 20)] },
    0x300, _, _, [], rfl, rfl, rfl, by decide, by decide, by decide⟩

theorem witness_FlagIsNotTheDestination : (1 : Reg) ≠ 0xF ∧ (2 : Reg) ≠ 1 ∧ (2 : Reg) ≠ 0xF := by decide

/-- The range that `fault` refuses begins one byte past the range that it admits. -/
theorem witness_DecimalDigitsAreStored :
    State.Accessible { strict with i := 0xFFD } 0xFFD 3 ∧ State.OutOfRange { strict with i := 0xFFE } 0xFFE 3 0x1000 :=
  ⟨.inr (.inr (by decide)), rfl, by decide, by decide, by decide, fun c h _ => h⟩

theorem witness_RegistersAreStored :
    State.Accessible { strict with i := 0xFF0 } 0xFF0 16 ∧ State.OutOfRange { strict with i := 0xFF1 } 0xFF1 16 0x1000 :=
  ⟨.inr (.inr (by decide)), rfl, by decide, by decide, by decide, fun c h _ => h⟩

/-- Where I itself is past memory, I is the address recorded. -/
theorem witness_RegistersAreLoaded :
    State.Accessible { strict with i := 0xFFF } 0xFFF 1 ∧ State.OutOfRange { strict with i := 0x1234 } 0x1234 1 0x1234 :=
  ⟨.inr (.inr (by decide)), rfl, by decide, by decide, by decide, fun c _ h => h⟩

/-- M22 -/
theorem witness_StoreThenLoadRestoresRegisters :
    ∃ (s t u : State), s.Accessible s.i.toNat ((1 : Reg).val + 1) ∧ exec (.storeRegs 1) s = .next t ∧
      u.i = t.i ∧ u.mem = t.mem ∧ u.cfg = t.cfg ∧ u.getV 0 ≠ s.getV 0 :=
  ⟨((data []).setV 0 0x12).setV 1 0x34, _, _, .inl rfl, rfl,
    (rfl : (State.setV ((((data []).setV 0 0x12).setV 1 0x34).storeBytes 0x300 [0x12, 0x34]) 0 0).i = _), rfl, rfl, by decide⟩

theorem witness_ClearTurnsEveryPixelOff :
    reset.cfg.drainAtomicity = .instruction ∧ reset.port.drains = [] ∧ (Grid.blank.put 3 4 true).at 3 4 = true := by decide

/-- D3: the leftmost and the rightmost bit of a row that wraps. -/
theorem witness_DrawTogglesTheCoveredPixels :
    ((data [0xFF]).setV 0 60).SpriteCovers 0 1 1 60 0 ∧ ((data [0xFF]).setV 0 60).SpriteCovers 0 1 1 3 0 ∧
    ((data [0xFF]).setV 0 60).cfg.drainAtomicity = .instruction ∧
    State.Accessible { strict with i := 0xFFF } 0xFFF 1 ∧ State.OutOfRange { strict with i := 0xFFF } 0xFFF 2 0x1000 :=
  ⟨⟨0, 0, by decide⟩, ⟨0, 7, by decide⟩, rfl, .inr (.inr (by decide)), rfl, by decide, by decide, by decide, fun _ h _ => h⟩

theorem witness_DrawingTwiceRestoresThePixels :
    ∃ (s t u : State), s.Accessible s.i.toNat (1 : Fin 16).val ∧ exec (.drw 0 1 1) s = .next t ∧ u.disp.pix = t.disp.pix ∧ u.i = s.i ∧
      u.mem = s.mem ∧ u.cfg = s.cfg ∧ u.getV 0 = s.getV 0 ∧ u.getV 1 = s.getV 1 ∧ s.SpriteCovers 0 1 1 0 0 ∧
      s.disp.pix.at 0 0 = false :=
  ⟨data [0xC0], (((data [0xC0]).draw ((data [0xC0]).drawCalls 0 1 1)).advance),
    (((data [0xC0]).draw ((data [0xC0]).drawCalls 0 1 1)).advance), .inl rfl, rfl, rfl, rfl, rfl, rfl, by decide, by decide,
    ⟨0, 0, by decide⟩, by decide⟩

theorem witness_DrainHandsOverTheDirtyPixels :
    ∃ (s : State) (es : List HostEvent), s.host = .drain :: es ∧ s.disp.dirty.at 7 7 = true ∧ s.status ≠ .running :=
  ⟨{ reset with host := [.drain], status := .waitKey 0, disp := (Display.fresh.set 7 7 true).1 }, [], rfl, by decide, by decide⟩

/-- X11: with a drain inside the draw; a pixel changed before it was handed over with its new value, one changed after it is dirty. -/
theorem witness_NoPixelChangeIsLost :
    ∃ (s t : State), exec (.drw 0 1 1) s = .next t ∧ s.disp.pix.at 60 0 ≠ t.disp.pix.at 60 0 ∧ t.disp.dirty.at 60 0 = false ∧
      s.disp.pix.at 0 0 ≠ t.disp.pix.at 0 0 ∧ t.disp.dirty.at 0 0 = true :=
  ⟨{ (data [0xFF]).setV 0 60 with
      cfg := { Config.standard with drainAtomicity := .pixel }, port := { StepInput.idle 0 with drains := [4] } },
    _, rfl, by decide, by decide, by decide, by decide⟩

theorem witness_TearingNeverReachesTheCore :
    ∃ (s t u : State), exec (.drw 0 1 1) { s with cfg := { s.cfg with drainAtomicity := .instruction } } = .next t ∧
      exec (.drw 0 1 1) { s with cfg := { s.cfg with drainAtomicity := .pixel } } = .next u ∧
      u.disp.out ≠ t.disp.out ∧ t.disp.pix.at 60 0 = true :=
  ⟨{ (data [0xFF]).setV 0 60 with port := { StepInput.idle 0 with drains := [4] } }, _, _, rfl, rfl,
    fun h => absurd (congrArg List.length h) (by decide), by decide⟩

/-- Key index 15 names a key; 16 is the first that names none. -/
theorem witness_KeySkipsFollowTheKeys :
    (∃ k : Key, ((reset.setV 5 15).getV 5).toNat = k.val ∧ State.port reset = StepInput.idle 0 ∧ reset.port.keys[k] = false) ∧
    (16 ≤ ((reset.setV 5 16).getV 5).toNat ∧ (reset.setV 5 16).cfg.keyOor = .notPressed) ∧
    (∃ s : State, 16 ≤ (s.getV 5).toNat ∧ s.cfg.keyOor = .lowNibble ∧
      ∃ k : Key, (s.getV 5).toNat % 16 = k.val ∧ s.port.keys[k] = true) ∧
    (∃ s : State, 16 ≤ (s.getV 5).toNat ∧ s.cfg.keyOor = .ubStop) :=
  ⟨⟨15, by decide, rfl, by decide⟩, ⟨by decide, rfl⟩,
   ⟨{ reset.setV 5 0x1A with cfg := { Config.standard with keyOor := .lowNibble }, port := keysDown [0xA] }, by decide, rfl, 0xA,
     by decide, by decide⟩,
   ⟨{ reset.setV 5 16 with cfg := { Config.standard with keyOor := .ubStop } }, by decide, rfl⟩⟩

theorem witness_KeyPressCompletesTheWait :
    (∃ s : State, s.host = [.press 0] ∧ s.status = .waitKey 0xF) ∧
    (∃ s : State, s.host = [.press 3] ∧ ∀ x, s.status ≠ .waitKey x) :=
  ⟨⟨{ reset with host := [.press 0], status := .waitKey 0xF }, rfl, rfl⟩,
   ⟨{ reset with host := [.press 3] }, rfl, fun _ => Status.noConfusion⟩⟩

theorem witness_CancelOnlyStops :
    (∃ s : State, s.host = [.cancel] ∧ s.status = .running) ∧ (∃ s : State, s.host = [.cancel] ∧ s.status = .waitKey 2) ∧
    (∃ s : State, s.host = [.cancel] ∧ s.status = .stopped) ∧ (∃ s : State, s.host = [.cancel] ∧ ∃ e, s.status = .halted e) :=
  ⟨⟨{ reset with host := [.cancel] }, rfl, rfl⟩, ⟨{ reset with host := [.cancel], status := .waitKey 2 }, rfl, rfl⟩,
   ⟨{ reset with host := [.cancel], status := .stopped }, rfl, rfl⟩,
   ⟨{ reset with host := [.cancel], status := .halted (.decodeError 0x200 0) }, rfl, _, rfl⟩⟩

/-- The longest ROM accepted. -/
theorem witness_LoadGivesEveryResetValue : (List.replicate 3584 (0x12 : Byte)).length ≤ 3584 := by
  rw [List.length_replicate]

/-- The shortest ROM refused. -/
theorem witness_OversizedRomIsRefused : 3584 < (List.replicate 3585 (0x12 : Byte)).length := by
  rw [List.length_replicate]; decide

theorem witness_OnlyAnOversizedLoadFaults :
    ∃ s : State, s.host = [.load 0 (List.replicate 3585 0)] ∧ s.status ≠ .running ∧ (∀ x, s.status ≠ .waitKey x) :=
  ⟨{ reset with host := [.load 0 (List.replicate 3585 0)], status := .stopped }, rfl, by decide, fun _ => Status.noConfusion⟩

theorem reset_inv : State.reset.Inv :=
  ⟨rfl, Nat.le_refl _, fun _ h => Status.noConfusion h, fun _ h => Status.noConfusion h⟩

theorem witness_EveryStepKeepsTheInvariant : ∃ s t : State, s.Inv ∧ step s = .next t ∧ s.host ≠ [] :=
  ⟨{ reset with host := [.step (StepInput.idle 0)] }, _,
    ⟨rfl, Nat.le_refl _, fun _ h => Status.noConfusion h, fun _ h => Status.noConfusion h⟩, rfl, by simp⟩

theorem witness_RestartForgetsTheOldCore :
    ∃ s t : State, s.status = .stopped ∧ (∃ e, t.status = .halted e) ∧ s.cfg = t.cfg ∧ s.draws = t.draws ∧
      s.host = [.load 5 [0x12, 0x00]] ∧ t.host = [.load 5 [0x12, 0x00]] ∧ s.getV 3 ≠ t.getV 3 :=
  ⟨{ reset.setV 3 7 with status := .stopped, host := [.load 5 [0x12, 0x00]] },
   { reset with status := .halted (.decodeError 0x200 0), host := [.load 5 [0x12, 0x00]] }, rfl, ⟨_, rfl⟩, rfl, rfl, rfl, rfl,
   by decide⟩

theorem witness_EachInstructionWritesOnlyItsOwn :
    (∃ t, exec (.subReg 1 2) reset = .next t) ∧ (1 : Reg) ∈ writtenRegs (.subReg 1 2) ∧ (2 : Reg) ∉ writtenRegs (.subReg 1 2) ∧
    (15 : Reg) ∈ writtenRegs (.subReg 1 2) ∧ (3 : Reg) ∉ writtenRegs (.loadRegs 2) ∧ (2 : Reg) ∈ writtenRegs (.loadRegs 2) :=
  ⟨⟨_, rfl⟩, by decide, by decide, by decide, by decide, by decide⟩

theorem witness_DirtyBitsAreUnobservable :
    ∃ s t : State, s.hideDirty = t.hideDirty ∧ s.disp.dirty.at 3 4 ≠ t.disp.dirty.at 3 4 :=
  ⟨reset, { reset with disp := { Display.fresh with dirty := Grid.blank.put 3 4 true } }, rfl, by decide⟩

theorem witness_SoundTimerIsUnobservable : ∃ s t : State, s.hideSt = t.hideSt ∧ s.st ≠ t.st :=
  ⟨reset, { reset with st := 9 }, rfl, by decide⟩

theorem witness_DeadStackEntriesAreUnobservable :
    ∃ s t : State, s.hideDeadStack = t.hideDeadStack ∧ s.stack[1] ≠ t.stack[1] ∧ s.sp = 1 :=
  ⟨{ reset with sp := 1 }, { reset with sp := 1, stack := reset.stack.set 1 0x204 }, by decide, by decide, rfl⟩

theorem witness_OnlyKeyWaitAndErrorsLeaveRunning :
    (∃ t, reset.status = .running ∧ exec (.ldVxK 2) reset = .next t ∧ t.status = .waitKey 2) ∧
    (∃ t e, exec .ret reset = .next t ∧ t.status = .halted e ∧ reset.cfg.memOob = .wrap ∧ reset.cfg.keyOor = .notPressed) :=
  ⟨⟨_, rfl, rfl, rfl⟩, ⟨_, _, rfl, rfl, rfl, rfl⟩⟩

theorem witness_ParametersStayAndClockNeverGoesBack :
    ∃ t, step (ready { reset with port := StepInput.idle 30 } 0x1200 (StepInput.idle 20)) = .next t ∧
      ¬ (ready { reset with port := StepInput.idle 30 } 0x1200 (StepInput.idle 20)).LoadIsNext ∧ t.port.now = 30 :=
  ⟨_, rfl, not_load _ _ _, rfl⟩

/-- The longest ROM accepted and the shortest refused, on the two kinds of core that may be replaced, and both kinds that may not. -/
theorem witness_LoadEventReplacesAnEndedCore :
    (∃ s : State, s.host = [.load 7 (List.replicate 3584 0x12)] ∧ s.status = .stopped) ∧
    (∃ s : State, s.host = [.load 7 (List.replicate 3585 0x12)] ∧ ∃ e, s.status = .halted e) ∧
    (∃ s : State, s.host = [.load 7 [0x12]] ∧ s.status = .running) ∧
    (∃ s : State, s.host = [.load 7 [0x12]] ∧ s.status = .waitKey 0) :=
  ⟨⟨{ reset with host := [.load 7 (List.replicate 3584 0x12)], status := .stopped }, rfl, rfl⟩,
   ⟨{ reset with host := [.load 7 (List.replicate 3585 0x12)], status := .halted (.decodeError 0x200 0) }, rfl, _, rfl⟩,
   ⟨{ reset with host := [.load 7 [0x12]] }, rfl, rfl⟩,
   ⟨{ reset with host := [.load 7 [0x12]], status := .waitKey 0 }, rfl, rfl⟩⟩

/-- The step of `ready s w` ends in the error `e`, whose code is `n`. -/
def raises (s : State) (w : Nat) (e : Error) (n : Nat) : Bool := passes s w fun t => t.status = .halted e ∧ e.code = n

/-- One error of each code of R252: E2, C9, C2, X1, X3, X10. -/
theorem witness_ErrorCodesFollowTheTable :
    raises reset 0x0000 (.decodeError 0x200 0x0000) 1 ∧
    raises { reset with sp := 16 } 0x2300 (.stackFault 0x200 0x2300 .overflow) 2 ∧
    raises reset 0x00EE (.stackFault 0x200 0x00EE .underflow) 3 ∧
    raises { strict with i := 0xFFE } 0xF033 (.ubStop 0x200 (some 0xF033) (.memoryRange 0x1000)) 4 ∧
    raises { strict with pc := 0xFFF } 0x1200 (.ubStop 0xFFF none (.memoryRange 0x1000)) 4 ∧
    raises ({ reset with cfg := { Config.standard with keyOor := .ubStop } }.setV 5 0x1A) 0xE5A1
      (.ubStop 0x200 (some 0xE5A1) (.keyIndex 0x1A)) 5 := by decide

/-- K9, E2 and a cancellation: each way out of `Running` is taken. -/
theorem witness_RunningIsLeftAsTheSpecSays :
    passes reset 0xF20A (fun t => t.status = .waitKey 2) ∧
    raises reset 0x0000 (.decodeError 0x200 0x0000) 1 ∧
    Result.is (step { reset with host := [.cancel] }) (fun t => t.status = .stopped) := by decide

end Sys2Proof.Tests
end

section
/-! PROOF. The frame of every instruction (`exec_sameExcept`), what a step and each host event do to the parameters and the clock, and
from them O55: the parameters never change and the clock never goes back but at a load (00_scope.md R8, 40_engine.md R130). -/

namespace Sys2Proof.Machine

/-! ### Frames of the operations that an instruction's meaning is built from -/

/-- An operation that may move PC may end in the normal advance. -/
theorem SameExcept.then_advance {ps : List Part} {s t : State} (h : SameExcept ps s t) (hpc : .pc ∈ ps) :
    SameExcept ps s t.advance :=
  h.trans ((SameExcept.advance t).mono (by simpa using hpc))

theorem SameExcept.setV_advance (s : State) (x : Reg) (b : Byte) : SameExcept [.v, .pc] s (s.setV x b).advance :=
  ((SameExcept.setV s x b).mono (by simp)).then_advance (by simp)

theorem SameExcept.setFlagThenV_advance (s : State) (x : Reg) (f b : Byte) :
    SameExcept [.v, .pc] s (s.setFlagThenV x f b).advance :=
  ((SameExcept.setFlagThenV s x f b).mono (by simp)).then_advance (by simp)

theorem SameExcept.setI (s : State) (w : Word) : SameExcept [.i] s { s with i := w } := by
  intro p hp; cases p <;> simp [Part.same, State.getV, State.readByte] at hp ⊢

theorem SameExcept.setDt (s : State) (b : Byte) : SameExcept [.dt] s { s with dt := b } := by
  intro p hp; cases p <;> simp [Part.same, State.getV, State.readByte] at hp ⊢

theorem SameExcept.setSt (s : State) (b : Byte) : SameExcept [.st] s { s with st := b } := by
  intro p hp; cases p <;> simp [Part.same, State.getV, State.readByte] at hp ⊢

theorem SameExcept.setStatus (s : State) (m : Status) : SameExcept [.status] s { s with status := m } := by
  intro p hp; cases p <;> simp [Part.same, State.getV, State.readByte] at hp ⊢

theorem SameExcept.clearDisplay (s : State) : SameExcept [.disp] s s.clearDisplay := by
  intro p hp; cases p <;> simp [Part.same] at hp ⊢

theorem SameExcept.draw (s : State) (cs : List SetCall) : SameExcept [.v, .disp] s (s.draw cs) := by
  intro p hp; cases p <;> simp [Part.same] at hp ⊢

/-- A push writes the stack and PC, or raises. -/
theorem SameExcept.pushJump (s : State) (op v target : Word) :
    SameExcept [.pc, .stack, .status] s (s.pushJump op v target) := by
  unfold State.pushJump
  split
  · intro p hp; cases p <;> simp [Part.same, State.getV, State.readByte] at hp ⊢
  · exact (SameExcept.raise s _).mono (by simp)

/-- A pop writes SP and PC, or raises. -/
theorem SameExcept.popJump (s : State) (op : Word) : SameExcept [.pc, .stack, .status] s (s.popJump op) := by
  unfold State.popJump
  split
  · intro p hp; cases p <;> simp [Part.same, State.getV, State.readByte] at hp ⊢
  · exact (SameExcept.raise s _).mono (by simp)

/-- A skip that depends on a key, or the error of a key index that `KEY_INDEX_OOR = ub_stop` refuses. -/
theorem SameExcept.skipOrRaise (s : State) (o : Option Bool) (f : Bool → Bool) (e : Error) :
    SameExcept [.pc, .status] s (match o with | some p => s.skipIf (f p) | none => s.raise e) := by
  cases o with
  | some p => exact (SameExcept.skipIf s (f p)).mono (by simp)
  | none => exact (SameExcept.raise s e).mono (by simp)

/-! ### The frame of an instruction -/

/-- Each instruction answers a state that differs in the instruction's own parts alone. -/
theorem exec_answers_sameExcept (i : Instr) (s : State) :
    ∃ t, exec i s = .next t ∧ SameExcept (writtenParts i) s t := by
  cases i with
  | cls =>
    exact ⟨_, rfl, ((SameExcept.clearDisplay s).mono (by simp [writtenParts])).then_advance (by simp [writtenParts])⟩
  | ret => exact ⟨_, rfl, SameExcept.popJump s _⟩
  | call nnn => exact ⟨_, rfl, SameExcept.pushJump s _ _ _⟩
  | jp | jpV0 => exact ⟨_, rfl, SameExcept.jump s _⟩
  | seImm | sneImm | seReg | sneReg => exact ⟨_, rfl, SameExcept.skipIf s _⟩
  | ldImm | addImm | ldReg | orReg | andReg | xorReg | rnd | ldVxDt => exact ⟨_, rfl, SameExcept.setV_advance s _ _⟩
  | addReg | subReg | shr | subnReg | shl => exact ⟨_, rfl, SameExcept.setFlagThenV_advance s _ _ _⟩
  | ldI | addI | ldF =>
    exact ⟨_, rfl, ((SameExcept.setI s _).mono (by simp [writtenParts])).then_advance (by simp [writtenParts])⟩
  | ldDtVx x =>
    exact ⟨_, rfl, ((SameExcept.setDt s _).mono (by simp [writtenParts])).then_advance (by simp [writtenParts])⟩
  | ldStVx x =>
    exact ⟨_, rfl, ((SameExcept.setSt s _).mono (by simp [writtenParts])).then_advance (by simp [writtenParts])⟩
  | ldVxK x => exact ⟨_, rfl, SameExcept.setStatus s _⟩
  | skp x => exact ⟨_, rfl, SameExcept.skipOrRaise s _ id _⟩
  | sknp x => exact ⟨_, rfl, SameExcept.skipOrRaise s _ not _⟩
  | drw x y n =>
    have h : SameExcept [.v, .disp, .pc] s (s.draw (s.drawCalls x y n)).advance :=
      ((SameExcept.draw s _).mono (by simp)).then_advance (by simp)
    exact ⟨_, rfl, (h.withRange _ _).mono (by simp [writtenParts])⟩
  | ldB | storeRegs =>
    have h (bs : List Byte) : SameExcept [.mem, .pc] s (s.storeBytes s.base bs).advance :=
      ((SameExcept.storeBytes s _ bs).mono (by simp)).then_advance (by simp)
    exact ⟨_, rfl, ((h _).withRange _ _).mono (by simp [writtenParts])⟩
  | loadRegs x =>
    have h : SameExcept [.v, .pc] s (s.loadThrough x).advance :=
      ((SameExcept.loadThrough s x).mono (by simp)).then_advance (by simp)
    exact ⟨_, rfl, (h.withRange _ _).mono (by simp [writtenParts])⟩

theorem exec_sameExcept {i : Instr} {s t : State} (h : exec i s = .next t) : SameExcept (writtenParts i) s t := by
  obtain ⟨u, hu, hs⟩ := exec_answers_sameExcept i s
  obtain rfl : u = t := Host.Outcome.next.inj (hu.symm.trans h)
  exact hs

/-! ### Nothing from fetch to advance touches the boundary -/

theorem boundary_not_mem_writtenParts (i : Instr) : .boundary ∉ writtenParts i := by
  cases i <;> simp [writtenParts]

theorem State.illegal_same_boundary (s : State) (op : Word) : Part.boundary.same s (s.illegal op) := by
  unfold State.illegal
  split
  · exact SameExcept.advance s .boundary (by simp)
  · exact SameExcept.raise s _ .boundary (by simp)

/-- Fetch, decode, execute and advance leave the parameters, the port, the pending events and the draws. -/
theorem State.fetchExec_same_boundary {s t : State} (h : s.fetchExec = .next t) : Part.boundary.same s t := by
  cases hf : s.fetch with
  | error e =>
    obtain rfl := Host.Outcome.next.inj ((State.fetchExec_of_error hf).symm.trans h)
    exact SameExcept.raise s e .boundary (by simp)
  | ok op =>
    cases hd : decodeWord op with
    | some i =>
      exact exec_sameExcept ((State.fetchExec_of_instr hf hd).symm.trans h) _ (boundary_not_mem_writtenParts i)
    | none =>
      obtain rfl := Host.Outcome.next.inj ((State.fetchExec_of_illegal hf hd).symm.trans h)
      exact s.illegal_same_boundary op

/-! ### The parameters and the clock over a step and over each host event -/

/-- A core's step keeps the parameters, and its latch holds the clock back from going back (R130, log entry 7). -/
theorem State.runStep_cfg_and_clock {s t : State} {inp : StepInput} (h : s.runStep inp = .next t) :
    t.cfg = s.cfg ∧ s.port.now ≤ t.port.now := by
  by_cases hr : s.status = .running
  · obtain ⟨hcfg, hport, -, -⟩ := State.fetchExec_same_boundary ((State.runStep_running inp hr).symm.trans h)
    have hnow : t.port.now = max s.port.now inp.now := by rw [hport]; rfl
    exact ⟨hcfg, hnow ▸ Nat.le_max_left ..⟩
  · obtain rfl := Host.Outcome.next.inj ((State.runStep_not_running inp hr).symm.trans h)
    exact ⟨rfl, Nat.le_refl _⟩

@[simp] theorem State.press_cfg (s : State) (k : Key) : (s.press k).cfg = s.cfg := by
  unfold State.press; split <;> rfl

@[simp] theorem State.press_port (s : State) (k : Key) : (s.press k).port = s.port := by
  unfold State.press; split <;> rfl

@[simp] theorem State.cancel_cfg (s : State) : s.cancel.cfg = s.cfg := by
  unfold State.cancel; split <;> rfl

@[simp] theorem State.cancel_port (s : State) : s.cancel.port = s.port := by
  unfold State.cancel; split <;> rfl

theorem loadRom_cfg {cfg : Config} {t0 : Nat} {rom : List Byte} {t : State} (h : loadRom cfg t0 rom = .ok t) :
    t.cfg = cfg := by
  unfold loadRom at h
  split at h
  · obtain rfl := Except.ok.inj h
    rfl
  · cases h

/-- A load hands the parameters on to the new core; where it has no effect they stay. -/
theorem State.reload_keeps_cfg {s t : State} {t0 : Nat} {rom : List Byte} (h : s.reload t0 rom = .next t) : t.cfg = s.cfg := by
  obtain hlive | hended : (s.status = .running ∨ ∃ x, s.status = .waitKey x) ∨
      (s.status = .stopped ∨ ∃ e, s.status = .halted e) := by
    cases s.status <;> simp
  · obtain rfl := Host.Outcome.next.inj ((State.reload_of_live t0 rom hlive).symm.trans h)
    rfl
  · rw [State.reload_of_ended t0 rom hended] at h
    split at h
    · next u hu =>
      obtain rfl := Host.Outcome.next.inj h
      exact loadRom_cfg (t := u) hu
    · cases h

/-- An event keeps the parameters, and a load alone may set the clock back. -/
theorem State.deliver_cfg_and_clock {s t : State} {e : HostEvent} (h : s.deliver e = .next t) :
    t.cfg = s.cfg ∧ ((∀ t0 rom, e ≠ .load t0 rom) → s.port.now ≤ t.port.now) := by
  cases e with
  | step inp => exact (State.runStep_cfg_and_clock h).imp_right fun hnow _ => hnow
  | press k =>
    obtain rfl := Host.Outcome.next.inj h
    simp
  | cancel =>
    obtain rfl := Host.Outcome.next.inj h
    simp
  | drain =>
    obtain rfl := Host.Outcome.next.inj h
    simp
  | load t0 rom => exact ⟨State.reload_keeps_cfg h, fun hl => absurd rfl (hl t0 rom)⟩

/-- Settles O55: a step is an event, a free step or nothing, and each keeps the parameters; all but a load keep or advance the clock. -/
theorem parametersStayAndClockNeverGoesBack : Obligations.ParametersStayAndClockNeverGoesBack := by
  intro s t h
  obtain ⟨e, es, hhost, hdel⟩ | ⟨-, -, hrun⟩ | ⟨-, -, rfl⟩ := step_cases h
  · obtain ⟨hcfg, hclock⟩ := State.deliver_cfg_and_clock hdel
    refine ⟨hcfg, fun hl => hclock ?_⟩
    rintro t0 rom rfl
    exact hl ⟨t0, rom, es, hhost⟩
  · obtain ⟨hcfg, hclock⟩ := State.runStep_cfg_and_clock hrun
    exact ⟨hcfg, fun _ => hclock⟩
  · exact ⟨rfl, fun _ => Nat.le_refl _⟩

end Sys2Proof.Machine
end

section
/-! PROOF. What a load leaves in the core: O45, O47 and O56 (10_state.md R53; 70_reset_and_hazards.md R280 to R284). -/

namespace Sys2Proof.Machine

/-! ### What memory reads as after a load -/

theorem Memory.read_image_inside (font : Font) (a k : Nat) (bs : List Byte) (hk : k < bs.length) :
    Memory.read font (Memory.image font a bs) (a + k) = bs[k] := by
  simp [Memory.read_image, hk]

theorem Memory.read_image_outside (font : Font) (a b : Nat) (bs : List Byte) (h : b < a ∨ a + bs.length ≤ b) :
    Memory.read font (Memory.image font a bs) b = Memory.unlisted font b := by
  rw [Memory.read_image, dif_neg (by omega)]

/-- The font's bytes lie glyph after glyph from address 0 (R52). -/
theorem Memory.unlisted_glyph (font : Font) (d : Fin 16) (k : Fin 5) :
    Memory.unlisted font (5 * d.val + k.val) = font[d][k] := by
  have hdiv : (5 * d.val + k.val) / 5 = d.val := by omega
  have hmod : (5 * d.val + k.val) % 5 = k.val := by omega
  rw [Memory.unlisted, dif_pos (by omega)]
  simp only [hdiv, hmod, Fin.getElem_fin]

theorem Memory.unlisted_above_font (font : Font) {a : Nat} (h : 80 ≤ a) : Memory.unlisted font a = 0 :=
  dif_neg (Nat.not_lt.2 h)

/-- Below 4096 the address map changes nothing (R72a). -/
theorem State.readByte_of_lt (s : State) {a : Nat} (h : a < 4096) : s.readByte a = s.mem.read s.cfg.font a := by
  rw [State.readByte, mapAddr, memSize, Nat.mod_eq_of_lt h]

/-! ### The core that a load makes -/

/-- The new core holds the values of R53; what is the host's, the pending events and the draws, has no part in them. -/
theorem State.fresh_hasLoadValues (cfg : Config) (t0 : Nat) (host : List HostEvent) (draws : Nat) {rom : List Byte}
    (hrom : rom.length ≤ 3584) :
    State.HasLoadValues { State.fresh cfg t0 (Memory.image cfg.font programBase rom) with host := host, draws := draws }
      t0 rom where
  v := fun r => by simp [State.getV, State.fresh]
  i := rfl
  pc := rfl
  sp := rfl
  stack := fun k => by simp [State.fresh]
  dt := rfl
  st := rfl
  display := fun a b => ⟨Grid.at_blank a b, Grid.at_blank a b⟩
  tickRef := rfl
  status := rfl
  fontBytes := fun d k => by
    rw [State.readByte_of_lt _ (by omega)]
    exact (Memory.read_image_outside _ _ _ _ (.inl (by rw [programBase]; omega))).trans (Memory.unlisted_glyph _ d k)
  zeroBelow := fun a hfont hrom => by
    rw [State.readByte_of_lt _ (by omega)]
    exact (Memory.read_image_outside _ _ _ _ (.inl hrom)).trans (Memory.unlisted_above_font _ hfont)
  romBytes := fun k hk => by
    rw [State.readByte_of_lt _ (by omega)]
    exact Memory.read_image_inside _ _ _ _ hk
  zeroAbove := fun a hrom hmem => by
    rw [State.readByte_of_lt _ hmem]
    exact (Memory.read_image_outside _ _ _ _ (.inr hrom)).trans (Memory.unlisted_above_font _ (by omega))

/-- Settles O45: a ROM that fits makes the core of `State.fresh`, which holds the values of R53. -/
theorem loadGivesEveryResetValue : Obligations.LoadGivesEveryResetValue := fun cfg t0 _ hrom =>
  ⟨_, loadRom_of_le cfg t0 hrom, rfl, State.fresh_hasLoadValues cfg t0 [] 0 hrom⟩

/-- Settles O47: reset is a fresh core with an empty ROM, its clock at its tick reference. -/
theorem resetMeetsTheInvariant : Obligations.ResetMeetsTheInvariant where
  memCanonical := State.wf_fresh_image Config.standard 0 (rom := []) (Nat.zero_le _)
  tickNotAhead := Nat.le_refl _
  waitAtItsInstruction := fun _ hwait => Status.noConfusion hwait
  haltedRecordTrue := fun _ hhalt => Status.noConfusion hhalt

/-- A load that fits replaces an ended core by a fresh one; the host's events and draws go on (R284). -/
theorem State.reload_of_ended_of_le {s : State} (t0 : Nat) {rom : List Byte}
    (h : s.status = .stopped ∨ ∃ e, s.status = .halted e) (hrom : rom.length ≤ romMax) :
    s.reload t0 rom = .next { State.fresh s.cfg t0 (Memory.image s.cfg.font programBase rom) with
      host := s.host, draws := s.draws } := by
  rw [State.reload_of_ended t0 rom h, loadRom_of_le s.cfg t0 hrom]

/-- An oversized load of an ended core is the load error (R282). -/
theorem State.reload_of_ended_of_gt {s : State} (t0 : Nat) {rom : List Byte}
    (h : s.status = .stopped ∨ ∃ e, s.status = .halted e) (hrom : romMax < rom.length) :
    s.reload t0 rom = .fault (.romTooLarge rom.length) := by
  rw [State.reload_of_ended t0 rom h, loadRom_of_gt s.cfg t0 hrom]

/-- Settles O56: by the core's status and the ROM's length. -/
theorem loadEventReplacesAnEndedCore : Obligations.LoadEventReplacesAnEndedCore := by
  intro s t0 rom es hhost
  have hstep : step s = State.reload { s with host := es } t0 rom := step_of_cons hhost
  refine ⟨fun hended hlen => ?_, fun hended hlen => ?_, fun hlive => ?_⟩
  · exact ⟨_, hstep.trans (State.reload_of_ended_of_le t0 hended hlen),
      State.fresh_hasLoadValues s.cfg t0 es s.draws hlen, rfl, rfl, rfl, rfl, rfl⟩
  · exact hstep.trans (State.reload_of_ended_of_gt t0 hended hlen)
  · exact hstep.trans (State.reload_of_live t0 rom hlive)

end Sys2Proof.Machine
end

section
/-! PROOF. Which registers an instruction writes, and with its frame (`exec_sameExcept`) O50 (10_state.md R33, R34). -/

namespace Sys2Proof.Machine

/-- The error of a range check writes no register, so a register keeps its value if the guarded access keeps it. -/
theorem State.getV_withRange {s k : State} {r : Reg} (op : Word) (len : Nat) (h : k.getV r = s.getV r) :
    (s.withRange op len k).getV r = s.getV r := by
  obtain ⟨-, hrun⟩ | ⟨a, -, hraise⟩ := State.withRange_cases s op len k
  · rw [hrun, h]
  · rw [hraise, State.raise_getV]

/-- A register outside the instruction's row of R34 keeps its value. -/
theorem exec_getV_of_not_written {i : Instr} {s t : State} (h : exec i s = .next t) {r : Reg} (hr : r ∉ writtenRegs i) :
    t.getV r = s.getV r := by
  cases i with
  | ldImm | addImm | ldReg | orReg | andReg | xorReg | rnd | ldVxDt =>
    obtain rfl := Host.Outcome.next.inj h
    rw [State.advance_getV, State.getV_setV, if_neg (by simpa [writtenRegs] using hr)]
  | addReg | subReg | shr | subnReg | shl =>
    obtain rfl := Host.Outcome.next.inj h
    obtain ⟨hflag, hx⟩ : r ≠ flagReg ∧ r ≠ _ := by simpa [writtenRegs] using hr
    rw [State.advance_getV, State.getV_setFlagThenV, if_neg hx, if_neg hflag]
  | drw =>
    obtain rfl := Host.Outcome.next.inj h
    refine State.getV_withRange _ _ ?_
    rw [State.advance_getV, State.getV_draw, if_neg (by simpa [writtenRegs] using hr)]
  | loadRegs =>
    obtain rfl := Host.Outcome.next.inj h
    refine State.getV_withRange _ _ ?_
    rw [State.advance_getV, State.getV_loadThrough, if_neg (by simpa [writtenRegs] using hr)]
  | cls | ret | jp | call | seImm | sneImm | seReg | sneReg | ldI | jpV0 | skp | sknp | ldVxK | ldDtVx | ldStVx | addI | ldF
  | ldB | storeRegs => exact exec_sameExcept h .v (by simp [writtenParts]) r

/-- Settles O50: the instruction's frame, and for the registers a case per kind of register write. -/
theorem eachInstructionWritesOnlyItsOwn : Obligations.EachInstructionWritesOnlyItsOwn := fun _ _ _ h =>
  ⟨exec_sameExcept h, fun _ hr => exec_getV_of_not_written h hr⟩

end Sys2Proof.Machine
end

section
/-! PROOF. What no step observes: O51 to O53 (10_state.md R44, R45, R54). The three blankings are one construction: a `View` blanks
something of the display, of the call stack and of ST, and a view that is `Blind` loses nothing that a step reads. The step is followed
once, for every blind view; each statement is then one view. -/

namespace Sys2Proof.Machine

theorem SameOutcome.refl (hide : State → State) (r : Result) : SameOutcome hide r r := by
  cases r <;> rfl

/-! ### A core is live or ended -/

theorem Status.live_or_ended (m : Status) :
    (m = .running ∨ ∃ x, m = .waitKey x) ∨ (m = .stopped ∨ ∃ e, m = .halted e) := by
  cases m <;> simp

theorem State.cancel_of_live {s : State} (h : s.status = .running ∨ ∃ x, s.status = .waitKey x) :
    s.cancel = { s with status := .stopped } := by
  obtain h | ⟨x, h⟩ := h <;> simp only [State.cancel, h]

theorem State.cancel_of_ended {s : State} (h : s.status = .stopped ∨ ∃ e, s.status = .halted e) : s.cancel = s := by
  obtain h | ⟨e, h⟩ := h <;> simp only [State.cancel, h]

/-! ### Blind views of the display, the call stack and ST -/

/-- A view of the display that keeps the pixels, and where equal views stay equal under every operation whose pixels follow from the
pixels. -/
structure BlindDisplay (f : Display → Display) : Prop where
  pix : ∀ {d e}, f d = f e → d.pix = e.pix
  op : ∀ {d e} (g : Display → Display), (∀ {a b : Display}, a.pix = b.pix → (g a).pix = (g b).pix) →
    f d = f e → f (g d) = f (g e)

/-- A view of the call stack at a given SP where equal views stay equal under push and pop, and agree on the entry popped. -/
structure BlindStack (f : Fin 17 → Vector Word 16 → Vector Word 16) : Prop where
  push : ∀ {p : Fin 17} {k l} (v : Word) (hp : p.val < 16), f p k = f p l →
    f ⟨p.val + 1, by omega⟩ (k.set p.val v) = f ⟨p.val + 1, by omega⟩ (l.set p.val v)
  pop : ∀ {p : Fin 17} {k l}, 0 < p.val → f p k = f p l → f ⟨p.val - 1, by omega⟩ k = f ⟨p.val - 1, by omega⟩ l
  top : ∀ {p : Fin 17} {k l}, 0 < p.val → f p k = f p l → k[p.val - 1] = l[p.val - 1]

/-- A view of ST where equal views stay equal under a tick. -/
def BlindTimer (f : Byte → Byte) : Prop := ∀ {a b}, f a = f b → f (decTimer a) = f (decTimer b)

theorem BlindDisplay.id : BlindDisplay id := ⟨congrArg Display.pix, fun g _ h => congrArg g h⟩

theorem BlindStack.all : BlindStack fun _ k => k where
  push := fun {_ k l} _ _ (h : k = l) => by rw [h]
  pop := fun _ h => h
  top := fun {_ k l} _ (h : k = l) => by simp only [h]

theorem BlindTimer.id : BlindTimer id := congrArg decTimer

/-! ### A view of the whole state -/

/-- How the display, the call stack at a given SP, and ST are seen. -/
structure View where
  disp : Display → Display
  stack : Fin 17 → Vector Word 16 → Vector Word 16
  st : Byte → Byte

/-- The state as the view shows it; every other part is shown as it is. -/
def View.hide (w : View) (s : State) : State :=
  { s with disp := w.disp s.disp, stack := w.stack s.sp s.stack, st := w.st s.st }

/-- The view loses nothing that a step reads. -/
structure View.Blind (w : View) : Prop where
  disp : BlindDisplay w.disp
  stack : BlindStack w.stack
  st : BlindTimer w.st

/-- States that look alike differ in the display, the call stack and ST alone, and there they look alike. -/
theorem View.alike_cases {w : View} {s t : State} (h : w.hide s = w.hide t) :
    ∃ d k b, w.disp s.disp = w.disp d ∧ w.stack s.sp s.stack = w.stack s.sp k ∧ w.st s.st = w.st b ∧
      t = { s with disp := d, stack := k, st := b } := by
  cases s; cases t
  simp only [View.hide, State.mk.injEq] at h
  obtain ⟨rfl, rfl, rfl, rfl, hstack, rfl, hst, rfl, hdisp, rfl, rfl, rfl, rfl, rfl, rfl⟩ := h
  exact ⟨_, _, _, hdisp, hstack, hst, rfl⟩

/-- What reads nothing that is blanked reads the same in states that look alike. -/
theorem View.read_congr {w : View} {α : Type} {s t : State} (h : w.hide s = w.hide t) (f : State → α)
    (hf : ∀ u, f (w.hide u) = f u) : f s = f t :=
  (hf s).symm.trans ((congrArg f h).trans (hf t))

/-- An operation that commutes with the view takes states that look alike to states that look alike. -/
theorem View.congr_of_commute {w : View} {s t : State} (h : w.hide s = w.hide t) {f : State → State}
    (hf : ∀ u, w.hide (f u) = f (w.hide u)) : w.hide (f s) = w.hide (f t) :=
  (hf s).trans ((congrArg f h).trans (hf t).symm)

/-- An instruction whose meaning commutes with the view takes states that look alike to states that look alike. -/
theorem View.exec_of_commute {w : View} {i : Instr} {f : State → State} {s t : State} (h : w.hide s = w.hide t)
    (hexec : ∀ u, exec i u = .next (f u)) (hf : ∀ u, w.hide (f u) = f (w.hide u)) :
    SameOutcome w.hide (exec i s) (exec i t) := by
  rw [hexec, hexec]
  exact View.congr_of_commute h hf

/-! ### Operations that do not touch what is blanked commute with the view -/

theorem View.hide_withRange (w : View) (s k : State) (op : Word) (len : Nat) :
    w.hide (s.withRange op len k) = (w.hide s).withRange op len (w.hide k) := by
  obtain ⟨hr, hrun⟩ | ⟨a, hr, hraise⟩ := State.withRange_cases s op len k
  · rw [hrun, State.withRange_of_none (s := w.hide s) _ hr]
  · rw [hraise, State.withRange_of_some (s := w.hide s) _ hr]
    rfl

theorem View.hide_storeBytes (w : View) (s : State) (a : Nat) (bs : List Byte) :
    w.hide (s.storeBytes a bs) = (w.hide s).storeBytes a bs := by
  induction bs generalizing s a with
  | nil => rfl
  | cons b bs ih => exact ih (s.writeByte a b) (a + 1)

theorem View.readBytes_hide (w : View) (s : State) (a n : Nat) : (w.hide s).readBytes a n = s.readBytes a n := by
  induction n generalizing a with
  | zero => rfl
  | succ n ih => exact congrArg (s.readByte a :: ·) (ih (a + 1))

theorem View.drawCalls_hide (w : View) (s : State) (x y : Reg) (n : Fin 16) :
    (w.hide s).drawCalls x y n = s.drawCalls x y n :=
  congrArg (spriteCalls _ _) (w.readBytes_hide s s.base n.val)

theorem View.hide_skipOrRaise (w : View) (s : State) (o : Option Bool) (f : Bool → Bool) (e : Error) :
    w.hide (match o with | some p => s.skipIf (f p) | none => s.raise e) =
      match o with | some p => (w.hide s).skipIf (f p) | none => (w.hide s).raise e := by
  cases o <;> rfl

/-- A range check, stores from I upward, and the normal advance. -/
theorem View.hide_storeThenAdvance (w : View) (s : State) (op : Word) (len : Nat) (bs : List Byte) :
    w.hide (s.withRange op len (s.storeBytes s.base bs).advance) =
      (w.hide s).withRange op len ((w.hide s).storeBytes s.base bs).advance := by
  rw [View.hide_withRange, ← View.hide_storeBytes]
  rfl

theorem View.hide_press (w : View) (s : State) (k : Key) : w.hide (s.press k) = (w.hide s).press k := by
  by_cases hwait : ∃ x, s.status = .waitKey x
  · obtain ⟨x, hx⟩ := hwait
    rw [State.press_waitKey k hx, State.press_waitKey (s := w.hide s) k hx]
    rfl
  · have hno := not_exists.1 hwait
    rw [State.press_of_not_waiting k hno, State.press_of_not_waiting (s := w.hide s) k hno]

theorem View.hide_illegal (w : View) (s : State) (op : Word) : w.hide (s.illegal op) = (w.hide s).illegal op :=
  apply_ite w.hide _ _ _

theorem View.hide_cancel (w : View) (s : State) : w.hide s.cancel = (w.hide s).cancel := by
  obtain hlive | hended := s.status.live_or_ended
  · rw [State.cancel_of_live hlive, State.cancel_of_live (s := w.hide s) hlive]
    rfl
  · rw [State.cancel_of_ended hended, State.cancel_of_ended (s := w.hide s) hended]

/-! ### Operations that touch it: states that look alike go on looking alike -/

section
variable {w : View} (hw : w.Blind) {s t : State} (h : w.hide s = w.hide t)
include hw h

theorem View.Blind.congr_drain : w.hide s.drain = w.hide t.drain := by
  obtain ⟨d, k, b, hd, hk, hb, rfl⟩ := View.alike_cases h
  have hdisp := hw.disp.op Display.drain (fun e => e) hd
  simp only [State.drain, View.hide, hdisp, hk, hb]

/-- Pixel by pixel or at once, a clear's pixels follow from the pixels. -/
theorem View.Blind.congr_clearDisplay : w.hide s.clearDisplay = w.hide t.clearDisplay := by
  obtain ⟨d, k, b, hd, hk, hb, rfl⟩ := View.alike_cases h
  cases hpolicy : s.cfg.drainAtomicity with
  | instruction =>
    have hdisp := hw.disp.op Display.clear (fun _ => rfl) hd
    simp only [State.clearDisplay, hpolicy, View.hide, hdisp, hk, hb]
  | pixel =>
    have hdisp := hw.disp.op (Display.clearEach s.midDrain 0 (s.port.clearOrder ++ raster))
      (Display.clearEach_pix_congr _ _ _ _ _) hd
    have hmid : State.midDrain { s with disp := d, stack := k, st := b } = s.midDrain := rfl
    simp only [State.clearDisplay, hpolicy, hmid, View.hide, hdisp, hk, hb]

/-- A sequence of `set` calls: its pixels and its flag follow from the pixels. -/
theorem View.Blind.congr_draw (cs : List SetCall) : w.hide (s.draw cs) = w.hide (t.draw cs) := by
  obtain ⟨d, k, b, hd, hk, hb, rfl⟩ := View.alike_cases h
  have hflag := (Display.run_pix_congr s.midDrain s.midDrain 0 0 cs (hw.disp.pix hd)).2
  have hdisp := hw.disp.op (fun e => (Display.run s.midDrain 0 cs e).1)
    (fun e => (Display.run_pix_congr _ _ _ _ cs e).1) hd
  have hmid : State.midDrain { s with disp := d, stack := k, st := b } = s.midDrain := rfl
  simp only [State.draw, hmid, State.setV, View.hide, hdisp, hflag, hk, hb]

theorem View.Blind.congr_pushJump (op target : Word) :
    w.hide (s.pushJump op s.pc target) = w.hide (t.pushJump op t.pc target) := by
  obtain ⟨d, k, b, hd, hk, hb, rfl⟩ := View.alike_cases h
  by_cases hroom : s.sp.val < 16
  · simp only [State.pushJump, hroom, dif_pos, View.hide, hd, hb, hw.stack.push s.pc hroom hk]
  · simp only [State.pushJump, hroom, dif_neg, not_false_eq_true, State.raise, View.hide, hd, hk, hb]

theorem View.Blind.congr_popJump (op : Word) : w.hide (s.popJump op) = w.hide (t.popJump op) := by
  obtain ⟨d, k, b, hd, hk, hb, rfl⟩ := View.alike_cases h
  by_cases hused : 0 < s.sp.val
  · simp only [State.popJump, hused, dif_pos, View.hide, hd, hb, hw.stack.pop hused hk, hw.stack.top hused hk]
  · simp only [State.popJump, hused, dif_neg, not_false_eq_true, State.raise, View.hide, hd, hk, hb]

/-- ST has no part in whether a tick is due. -/
theorem View.Blind.congr_timerUpdate : w.hide s.timerUpdate = w.hide t.timerUpdate := by
  obtain ⟨d, k, b, hd, hk, hb, rfl⟩ := View.alike_cases h
  have hsame : State.tickDue { s with disp := d, stack := k, st := b } = s.tickDue := rfl
  cases hdue : s.tickDue <;> simp [State.timerUpdate, hsame, hdue, View.hide, hd, hk, hb, hw.st hb]

/-! ### The instructions -/

/-- The sprite and its range check read what the view shows; the draw itself is `congr_draw`. -/
theorem View.Blind.congr_drw (x y : Reg) (n : Fin 16) (op : Word) :
    w.hide (s.withRange op n.val (s.draw (s.drawCalls x y n)).advance) =
      w.hide (t.withRange op n.val (t.draw (t.drawCalls x y n)).advance) := by
  have hcalls := View.read_congr h (State.drawCalls · x y n) (w.drawCalls_hide · x y n)
  have hdraw := congrArg State.advance (hw.congr_draw h (s.drawCalls x y n))
  rw [View.hide_withRange, View.hide_withRange, h, ← hcalls]
  exact congrArg ((w.hide t).withRange op n.val) hdraw

/-- An instruction takes states that look alike to states that look alike. -/
theorem View.Blind.exec_sameOutcome (i : Instr) : SameOutcome w.hide (exec i s) (exec i t) := by
  cases i with
  | jp | jpV0 | seImm | sneImm | seReg | sneReg | ldImm | addImm | ldReg | orReg | andReg | xorReg | addReg | subReg | shr
  | subnReg | shl | rnd | ldVxDt | ldVxK | ldDtVx | ldI | addI | ldF =>
    exact View.exec_of_commute h (fun _ => rfl) (fun _ => rfl)
  | skp | sknp => exact View.exec_of_commute h (fun _ => rfl) (fun u => w.hide_skipOrRaise u _ _ _)
  | ldB | storeRegs => exact View.exec_of_commute h (fun _ => rfl) (fun u => w.hide_storeThenAdvance u _ _ _)
  | loadRegs => exact View.exec_of_commute h (fun _ => rfl) (fun u => w.hide_withRange u _ _ _)
  | ldStVx x => exact congrArg (fun u => ({ u with st := w.st (u.getV x) } : State).advance) h
  | cls => exact congrArg State.advance (hw.congr_clearDisplay h)
  | ret => exact hw.congr_popJump h _
  | call nnn => exact hw.congr_pushJump h _ _
  | drw x y n => exact hw.congr_drw h x y n _

/-! ### The step -/

theorem View.Blind.fetchExec_sameOutcome : SameOutcome w.hide s.fetchExec t.fetchExec := by
  have hfetch : s.fetch = t.fetch := View.read_congr h State.fetch fun _ => rfl
  cases hs : s.fetch with
  | error e =>
    rw [State.fetchExec_of_error hs, State.fetchExec_of_error (hfetch ▸ hs)]
    exact congrArg (State.raise · e) h
  | ok op =>
    cases hd : decodeWord op with
    | some i =>
      rw [State.fetchExec_of_instr hs hd, State.fetchExec_of_instr (hfetch ▸ hs) hd]
      exact hw.exec_sameOutcome h i
    | none =>
      rw [State.fetchExec_of_illegal hs hd, State.fetchExec_of_illegal (hfetch ▸ hs) hd]
      exact View.congr_of_commute h (w.hide_illegal · op)

theorem View.Blind.runStep_sameOutcome (inp : StepInput) : SameOutcome w.hide (s.runStep inp) (t.runStep inp) := by
  have hstatus : s.status = t.status := View.read_congr h State.status fun _ => rfl
  by_cases hr : s.status = .running
  · rw [State.runStep_running inp hr, State.runStep_running inp (hstatus ▸ hr)]
    have hlatch : w.hide (s.latch inp) = w.hide (t.latch inp) := congrArg (State.latch · inp) h
    exact hw.fetchExec_sameOutcome (hw.congr_timerUpdate hlatch)
  · rw [State.runStep_not_running inp hr, State.runStep_not_running inp (hstatus ▸ hr)]
    exact h

theorem View.Blind.deliver_sameOutcome (e : HostEvent) : SameOutcome w.hide (s.deliver e) (t.deliver e) := by
  have hstatus : s.status = t.status := View.read_congr h State.status fun _ => rfl
  cases e with
  | step inp => exact hw.runStep_sameOutcome h inp
  | press k => exact View.congr_of_commute h (w.hide_press · k)
  | cancel => exact View.congr_of_commute h w.hide_cancel
  | drain => exact hw.congr_drain h
  | load t0 rom =>
    show SameOutcome w.hide (s.reload t0 rom) (t.reload t0 rom)
    obtain hlive | hended := s.status.live_or_ended
    · rw [State.reload_of_live t0 rom hlive, State.reload_of_live t0 rom (hstatus ▸ hlive)]
      exact h
    · have hcfg : s.cfg = t.cfg := View.read_congr h State.cfg fun _ => rfl
      have hhost : s.host = t.host := View.read_congr h State.host fun _ => rfl
      have hdraws : s.draws = t.draws := View.read_congr h State.draws fun _ => rfl
      rw [State.reload_of_ended t0 rom hended, State.reload_of_ended t0 rom (hstatus ▸ hended), hcfg, hhost, hdraws]
      exact SameOutcome.refl _ _

/-- No step shows through a blind view what the view blanks. -/
theorem View.Blind.step_sameOutcome : SameOutcome w.hide (step s) (step t) := by
  have hhost : s.host = t.host := View.read_congr h State.host fun _ => rfl
  have hstatus : s.status = t.status := View.read_congr h State.status fun _ => rfl
  cases hs : s.host with
  | cons e es =>
    rw [step_of_cons hs, step_of_cons (hhost ▸ hs)]
    exact hw.deliver_sameOutcome (congrArg (fun u : State => { u with host := es }) h) e
  | nil =>
    by_cases hr : s.status = .running
    · have hdraws : s.draws = t.draws := View.read_congr h State.draws fun _ => rfl
      rw [step_of_nil_running hs hr, step_of_nil_running (hhost ▸ hs) (hstatus ▸ hr), ← hdraws]
      exact hw.runStep_sameOutcome (congrArg (fun u : State => { u with draws := s.draws + 1 }) h) _
    · rw [step_of_nil_not_running hs hr, step_of_nil_not_running (hhost ▸ hs) (hstatus ▸ hr)]
      exact h

end

/-! ### The three views -/

/-- `State.hideDirty` as a view (R54). -/
def dirtyView : View := ⟨fun d => { d with dirty := Grid.blank, out := [] }, fun _ k => k, id⟩

/-- `State.hideSt` as a view (R45). -/
def stView : View := ⟨id, fun _ k => k, fun _ => 0⟩

/-- `State.hideDeadStack` as a view (R44). -/
def deadStackView : View :=
  ⟨id, fun p k => Vector.ofFn fun j : Fin 16 => if j.val < p.val then k[j] else 0, id⟩

/-- Only the live entries are seen. -/
theorem deadStackView_stack_eq_iff {p : Fin 17} {k l : Vector Word 16} :
    deadStackView.stack p k = deadStackView.stack p l ↔ ∀ j : Fin 16, j.val < p.val → k[j] = l[j] := by
  constructor
  · intro h j hj
    simpa [deadStackView, hj] using congrArg (·[j]) h
  · intro h
    apply Vector.ext
    intro j hj
    simp only [deadStackView, Vector.getElem_ofFn]
    split
    · next hlive => exact h ⟨j, hj⟩ hlive
    · rfl

/-- Only the pixels are seen. -/
theorem dirtyView_disp_eq_iff {d e : Display} : dirtyView.disp d = dirtyView.disp e ↔ d.pix = e.pix := by
  simp [dirtyView]

theorem dirtyView_blind : dirtyView.Blind where
  disp := ⟨dirtyView_disp_eq_iff.1, fun _ hg h => dirtyView_disp_eq_iff.2 (hg (dirtyView_disp_eq_iff.1 h))⟩
  stack := BlindStack.all
  st := BlindTimer.id

theorem stView_blind : stView.Blind := ⟨BlindDisplay.id, BlindStack.all, fun _ => rfl⟩

theorem deadStackView_stack_blind : BlindStack deadStackView.stack where
  push := fun {p k l} v hp h => deadStackView_stack_eq_iff.2 fun j hj => by
    simp only [Fin.getElem_fin, Vector.getElem_set]
    split
    · rfl
    · next hne => exact deadStackView_stack_eq_iff.1 h j (by simp only at hj; omega)
  pop := fun {p k l} hp h => deadStackView_stack_eq_iff.2 fun j hj =>
    deadStackView_stack_eq_iff.1 h j (by simp only at hj; omega)
  top := fun {p k l} hp h => deadStackView_stack_eq_iff.1 h ⟨p.val - 1, by omega⟩ (by simp only; omega)

theorem deadStackView_blind : deadStackView.Blind := ⟨BlindDisplay.id, deadStackView_stack_blind, BlindTimer.id⟩

/-- Settles O51: every display operation's pixels and flag follow from the pixels, and nothing else of the display is read. -/
theorem dirtyBitsAreUnobservable : Obligations.DirtyBitsAreUnobservable := fun _ _ h => dirtyView_blind.step_sameOutcome h

/-- Settles O52: a tick and `Fx18` write ST, and nothing reads it but its own tick. -/
theorem soundTimerIsUnobservable : Obligations.SoundTimerIsUnobservable := fun _ _ h => stView_blind.step_sameOutcome h

/-- Settles O53: a push overwrites a dead entry before it is live, and a pop reads a live one. -/
theorem deadStackEntriesAreUnobservable : Obligations.DeadStackEntriesAreUnobservable := fun _ _ h =>
  deadStackView_blind.step_sameOutcome h

end Sys2Proof.Machine
end

section
/-! PROOF. How a step can end: what an instruction raises (`exec_cases`), what a fetch answers, and from them O58, the ways out of
`Running` (10_state.md R47; 60_exceptions.md R250 to R254, R268). -/

namespace Sys2Proof.Machine

/-! ### What an instruction does to the run state -/

/-- The errors that an instruction raises, each with its cause and its record (R251, R254). -/
inductive Raises (s : State) : Instr → Error → Prop
  | overflow (nnn : Addr12) (hfull : s.sp.val = 16) :
    Raises s (.call nnn) (.stackFault s.pc (encode (.call nnn)) .overflow)
  | underflow (hempty : s.sp.val = 0) : Raises s .ret (.stackFault s.pc (encode .ret) .underflow)
  | range (i : Instr) {a : Nat} (hrange : s.rangeFault s.base (dataBytes i) = some a) :
    Raises s i (.ubStop s.pc (some (encode i)) (.memoryRange a))
  | skp (x : Reg) (hkey : s.keyPressed (s.getV x) = none) :
    Raises s (.skp x) (.ubStop s.pc (some (encode (.skp x))) (.keyIndex (s.getV x)))
  | sknp (x : Reg) (hkey : s.keyPressed (s.getV x) = none) :
    Raises s (.sknp x) (.ubStop s.pc (some (encode (.sknp x))) (.keyIndex (s.getV x)))

/-- Under the default `MEM_OOB` and `KEY_INDEX_OOR` an instruction raises a stack fault or nothing. -/
theorem Raises.code_of_defaults {s : State} {i : Instr} {e : Error} (h : Raises s i e) (hmem : s.cfg.memOob = .wrap)
    (hkeys : s.cfg.keyOor = .notPressed) : e.code = 2 ∨ e.code = 3 := by
  cases h with
  | overflow => exact .inl rfl
  | underflow => exact .inr rfl
  | range _ hrange =>
    obtain ⟨hfault, -⟩ := (State.rangeFault_eq_some ..).1 hrange
    simp [hmem] at hfault
  | skp x hkey | sknp x hkey =>
    obtain ⟨-, hstop⟩ := (State.keyPressed_eq_none ..).1 hkey
    simp [hkeys] at hstop

/-- The run state stays, or the instruction raises an error and changes nothing else. -/
def KeepsStatusOrRaises (i : Instr) (s t : State) : Prop := t.status = s.status ∨ ∃ e, Raises s i e ∧ t = s.raise e

theorem KeepsStatusOrRaises.withRange {i : Instr} {s k : State} (hk : k.status = s.status) :
    KeepsStatusOrRaises i s (s.withRange (encode i) (dataBytes i) k) := by
  obtain ⟨-, hrun⟩ | ⟨a, hrange, hraise⟩ := State.withRange_cases s (encode i) (dataBytes i) k
  · exact .inl ((congrArg State.status hrun).trans hk)
  · exact .inr ⟨_, .range i hrange, hraise⟩

/-- An instruction keeps the run state, begins its own wait, or raises. -/
theorem exec_cases {i : Instr} {s t : State} (h : exec i s = .next t) :
    (∃ x, i = .ldVxK x ∧ t = { s with status := .waitKey x }) ∨ KeepsStatusOrRaises i s t := by
  cases i with
  | ldVxK x => exact .inl ⟨x, rfl, (Host.Outcome.next.inj h).symm⟩
  | cls | jp | jpV0 | seImm | sneImm | seReg | sneReg | ldImm | addImm | ldReg | orReg | andReg | xorReg | addReg | subReg
  | shr | subnReg | shl | rnd | ldVxDt | ldDtVx | ldStVx | ldI | addI | ldF =>
    obtain rfl := Host.Outcome.next.inj h
    exact .inr (.inl rfl)
  | drw | loadRegs =>
    obtain rfl := Host.Outcome.next.inj h
    exact .inr (KeepsStatusOrRaises.withRange rfl)
  | ldB | storeRegs =>
    obtain rfl := Host.Outcome.next.inj h
    exact .inr (KeepsStatusOrRaises.withRange (State.storeBytes_status s _ _))
  | call nnn =>
    obtain rfl := Host.Outcome.next.inj h
    obtain hroom | hfull : s.sp.val < 16 ∨ s.sp.val = 16 := by omega
    · exact .inr (.inl (by rw [State.pushJump_of_lt _ _ _ hroom]))
    · exact .inr (.inr ⟨_, .overflow nnn hfull, State.pushJump_of_full _ _ _ hfull⟩)
  | ret =>
    obtain rfl := Host.Outcome.next.inj h
    obtain hused | hempty : 0 < s.sp.val ∨ s.sp.val = 0 := by omega
    · exact .inr (.inl (by rw [State.popJump_of_pos _ hused]))
    · exact .inr (.inr ⟨_, .underflow hempty, State.popJump_of_empty _ hempty⟩)
  | skp x =>
    obtain rfl := Host.Outcome.next.inj h
    cases hkey : s.keyPressed (s.getV x) with
    | some p => exact .inr (.inl rfl)
    | none => exact .inr (.inr ⟨_, .skp x hkey, rfl⟩)
  | sknp x =>
    obtain rfl := Host.Outcome.next.inj h
    cases hkey : s.keyPressed (s.getV x) with
    | some p => exact .inr (.inl rfl)
    | none => exact .inr (.inr ⟨_, .sknp x hkey, rfl⟩)

/-! ### What fetch and an unmatched word do -/

/-- A fetch answers the word at PC, or the error of a range that `MEM_OOB = fault` refuses (R132). -/
theorem State.fetch_cases (s : State) :
    (s.rangeFault s.pc.toNat 2 = none ∧ s.fetch = .ok s.wordAtPc) ∨
      ∃ a, s.rangeFault s.pc.toNat 2 = some a ∧ s.fetch = .error (.ubStop s.pc none (.memoryRange a)) := by
  cases h : s.rangeFault s.pc.toNat 2 with
  | none => exact .inl ⟨rfl, by simp only [State.fetch, h, State.wordAtPc]⟩
  | some a => exact .inr ⟨a, rfl, by simp only [State.fetch, h]⟩

/-- A word of no row is `SYS nnn`, or a decode error (R108, R133). -/
theorem State.illegal_cases (s : State) (op : Word) :
    s.illegal op = s.advance ∨ s.illegal op = s.raise (.decodeError s.pc op) := by
  unfold State.illegal
  split
  · exact .inl rfl
  · exact .inr rfl

/-! ### The ways out of `Running` -/

/-- What a step of a running core leaves as its run state: `Running`, the wait of the `Fx0A` at PC, or an error. -/
theorem State.fetchExec_status {s t : State} (hr : s.status = .running) (h : s.fetchExec = .next t) :
    t.status = .running ∨ (∃ x, t.status = .waitKey x ∧ decodeWord s.wordAtPc = some (.ldVxK x)) ∨
      ∃ e, t.status = .halted e ∧ (s.cfg.memOob = .wrap → s.cfg.keyOor = .notPressed →
        e.code = 1 ∨ e.code = 2 ∨ e.code = 3) := by
  obtain ⟨-, hfetch⟩ | ⟨a, hrange, hfetch⟩ := s.fetch_cases
  · cases hdecode : decodeWord s.wordAtPc with
    | some i =>
      rw [State.fetchExec_of_instr hfetch hdecode] at h
      obtain ⟨x, rfl, rfl⟩ | hkeep | ⟨e, hraises, rfl⟩ := exec_cases h
      · exact .inr (.inl ⟨x, rfl, rfl⟩)
      · exact .inl (hkeep.trans hr)
      · exact .inr (.inr ⟨e, rfl, fun hmem hkeys => .inr (hraises.code_of_defaults hmem hkeys)⟩)
    | none =>
      obtain rfl := Host.Outcome.next.inj ((State.fetchExec_of_illegal hfetch hdecode).symm.trans h)
      obtain hsys | herror := s.illegal_cases s.wordAtPc
      · exact .inl ((congrArg State.status hsys).trans hr)
      · exact .inr (.inr ⟨_, congrArg State.status herror, fun _ _ => .inl rfl⟩)
  · obtain rfl := Host.Outcome.next.inj ((State.fetchExec_of_error hfetch).symm.trans h)
    obtain ⟨hfault, -⟩ := (State.rangeFault_eq_some ..).1 hrange
    exact .inr (.inr ⟨_, rfl, fun hmem _ => by simp [hmem] at hfault⟩)

/-- A step of the core is fetch, decode and execute from the state after its timer update (R131). -/
theorem State.BeginsStep.step_eq {s u : State} (h : s.BeginsStep u) : step s = u.fetchExec := by
  obtain ⟨hr, ⟨inp, es, hhost, rfl⟩ | ⟨hhost, rfl⟩⟩ := h
  · exact (step_of_cons hhost).trans (State.runStep_running (s := { s with host := es }) inp hr)
  · exact (step_of_nil_running hhost hr).trans (State.runStep_running (s := { s with draws := s.draws + 1 }) _ hr)

/-- There the core is still running, and neither the word at PC nor a parameter has changed. -/
theorem State.BeginsStep.same {s u : State} (h : s.BeginsStep u) :
    u.status = .running ∧ u.wordAtPc = s.wordAtPc ∧ u.cfg = s.cfg := by
  obtain ⟨hr, ⟨inp, es, -, rfl⟩ | ⟨-, rfl⟩⟩ := h <;> exact ⟨hr, rfl, rfl⟩

/-- A running core takes a step of its own, or the host's next event is another one. -/
theorem State.beginsStep_or_other_event {s : State} (hr : s.status = .running) :
    (∃ u, s.BeginsStep u) ∨ ∃ e es, s.host = e :: es ∧ e.isStep = false := by
  cases hhost : s.host with
  | nil => exact .inl ⟨_, hr, .inr ⟨hhost, rfl⟩⟩
  | cons e es =>
    cases e with
    | step inp => exact .inl ⟨_, hr, .inl ⟨inp, es, hhost, rfl⟩⟩
    | press | cancel | drain | load => exact .inr ⟨_, es, rfl, rfl⟩

/-- Of the other events, a cancellation stops a running core, and the rest leave it running. -/
theorem State.deliver_running {s t : State} {e : HostEvent} (hr : s.status = .running) (he : e.isStep = false)
    (h : s.deliver e = .next t) : t.status = .running ∨ (e = .cancel ∧ t.status = .stopped) := by
  cases e with
  | step => cases he
  | press k =>
    obtain rfl := Host.Outcome.next.inj h
    exact .inl ((congrArg State.status (State.press_of_not_waiting k (by simp [hr]))).trans hr)
  | cancel =>
    obtain rfl := Host.Outcome.next.inj h
    exact .inr ⟨rfl, congrArg State.status (State.cancel_of_live (.inl hr))⟩
  | drain => exact .inl (Host.Outcome.next.inj h ▸ hr)
  | load t0 rom =>
    obtain rfl := Host.Outcome.next.inj ((State.reload_of_live t0 rom (.inl hr)).symm.trans h)
    exact .inl hr

/-- Settles O58: a step of the core ends as `fetchExec_status` says, another event as `deliver_running` says. -/
theorem runningIsLeftAsTheSpecSays : Obligations.RunningIsLeftAsTheSpecSays := by
  intro s t hr h
  obtain ⟨u, hu⟩ | ⟨e, es, hhost, he⟩ := State.beginsStep_or_other_event hr
  · obtain ⟨hru, hword, hcfg⟩ := hu.same
    have hend := State.fetchExec_status hru (hu.step_eq.symm.trans h)
    rw [hword, hcfg] at hend
    exact hend.imp_right fun hleft => .inr ⟨⟨u, hu⟩, hleft⟩
  · have hend := State.deliver_running (s := { s with host := es }) hr he ((step_of_cons hhost).symm.trans h)
    exact hend.imp_right fun ⟨hcancel, hstop⟩ => .inl ⟨es, hcancel ▸ hhost, hstop⟩

end Sys2Proof.Machine
end

section
/-! PROOF. A canonical memory is fixed by what it reads as: O16 (20_memory.md R71, R73; 10_state.md R48). -/

namespace Sys2Proof.Machine

/-- In canonical form the addresses rise strictly along the list. -/
theorem Memory.pairwise_of_wf {font : Font} {m : Memory} (h : m.wf font = true) : m.Pairwise (fun c d => c.1 < d.1) := by
  induction m with
  | nil => exact .nil
  | cons c m ih =>
    obtain ⟨-, -, habove, hm⟩ := (Memory.wf_cons ..).1 h
    exact .cons habove (ih hm)

/-- A canonical memory lists exactly the addresses that read as something else than an unlisted one, each with its byte. -/
theorem Memory.mem_iff_read {font : Font} {m : Memory} (h : m.wf font = true) (a : Nat) (w : Byte) :
    (a, w) ∈ m ↔ a < memSize ∧ w ≠ Memory.unlisted font a ∧ m.read font a = w := by
  induction m with
  | nil => simp [Memory.read, eq_comm]
  | cons c m ih =>
    obtain ⟨b, v⟩ := c
    obtain ⟨hb, hv, habove, hm⟩ := (Memory.wf_cons ..).1 h
    rw [List.mem_cons, Prod.mk.injEq, Memory.read]
    by_cases hab : b = a
    · subst hab
      have hfresh : (b, w) ∉ m := fun hmem => Nat.lt_irrefl b (habove _ hmem)
      simp only [hfresh, hb, if_true, true_and, or_false]
      exact ⟨fun e => ⟨e ▸ hv, e.symm⟩, fun ⟨_, e⟩ => e.symm⟩
    · simp only [if_neg hab, Ne.symm hab, false_and, false_or]
      exact ih hm

/-- Settles O16: the two lists have the same entries, and both are in the order of the addresses. -/
theorem canonicalMemoryIsItsReads : Obligations.CanonicalMemoryIsItsReads := by
  intro font m n hm hn hread
  have hmem (c : Host.Cell) : c ∈ m ↔ c ∈ n := by
    rw [Memory.mem_iff_read hm c.1 c.2, Memory.mem_iff_read hn c.1 c.2]
    exact and_congr_right fun hlt => by rw [hread c.1 hlt]
  have hsorted := Memory.pairwise_of_wf hm
  have hsorted' := Memory.pairwise_of_wf hn
  have hdistinct {c d : Host.Cell} (hlt : c.1 < d.1) : c ≠ d := fun e => Nat.lt_irrefl _ (e ▸ hlt)
  have hperm : m.Perm n := (List.perm_ext_iff_of_nodup (hsorted.imp hdistinct) (hsorted'.imp hdistinct)).2 hmem
  exact hperm.eq_of_pairwise (fun _ _ _ _ hlt hgt => absurd hgt (Nat.lt_asymm hlt)) hsorted hsorted'

end Sys2Proof.Machine
end

section
/-! PROOF. What `Fx55` stores reads back, and with it O17: bytes stored at the next PC are the next word (20_memory.md R72, R81;
43_index_memory.md R195; 70_reset_and_hazards.md R286). -/

namespace Sys2Proof.Machine

/-! ### Addresses that the map sends to one byte (R72a) -/

theorem mapAddr_succ_congr {a b : Nat} (h : mapAddr a = mapAddr b) : mapAddr (a + 1) = mapAddr (b + 1) :=
  Nat.ModEq.add_right 1 h

theorem State.readByte_of_mapAddr_eq (s : State) {a b : Nat} (h : mapAddr a = mapAddr b) : s.readByte a = s.readByte b :=
  congrArg (s.mem.read s.cfg.font) h

/-! ### The registers stored by `Fx55` (R195) -/

@[simp] theorem State.length_regsThrough (s : State) (x : Reg) : (s.regsThrough x).length = x.val + 1 := by
  rw [State.regsThrough, List.length_take, Vector.length_toList]
  omega

@[simp] theorem State.getElem_regsThrough (s : State) (x k : Reg) (h : k.val < (s.regsThrough x).length) :
    (s.regsThrough x)[k.val] = s.getV k := by
  simp [State.regsThrough, State.getV]

/-- The byte at I + k after the stores is Vk. -/
theorem State.readByte_store_regsThrough (s : State) {x k : Reg} (h : k ≤ x) :
    (s.storeBytes s.base (s.regsThrough x)).readByte (s.base + k.val) = s.getV k := by
  have hlen := s.length_regsThrough x
  rw [State.readByte_storeBytes _ _ _ _ (by rw [hlen, memSize]; omega) (by rw [hlen]; exact Nat.lt_succ_of_le h)]
  exact s.getElem_regsThrough x k _

/-- Where no address of its range is refused, `Fx55` stores its registers and advances. -/
theorem exec_storeRegs_of_none {s : State} {x : Reg} (h : s.rangeFault s.base (x.val + 1) = none) :
    exec (.storeRegs x) s = .next (s.storeBytes s.base (s.regsThrough x)).advance :=
  congrArg Host.Outcome.next (State.withRange_of_none _ h)

/-- Settles O17: the address map makes I + k and I + k + 1 the two bytes of the word at the new PC, and they hold Vk and V(k+1). -/
theorem storedBytesAreTheNextWord : Obligations.StoredBytesAreTheNextWord := by
  intro s x k l hwrap hl hlx hmap
  refine ⟨_, exec_storeRegs_of_none ((State.rangeFault_eq_none ..).2 (.inl hwrap)), by simp, ?_⟩
  have hkl : k ≤ l := Fin.le_def.2 (by omega)
  have hmap' : mapAddr (s.base + l.val) = mapAddr ((s.pc + 2).toNat + 1) := by
    rw [hl]
    exact mapAddr_succ_congr hmap
  have hhigh := (State.readByte_of_mapAddr_eq _ hmap).symm.trans (s.readByte_store_regsThrough (hkl.trans hlx))
  have hlow := (State.readByte_of_mapAddr_eq _ hmap').symm.trans (s.readByte_store_regsThrough hlx)
  simp only [State.wordAtPc, State.advance_pc, State.advance_readByte, State.storeBytes_pc]
  rw [hhigh, hlow]

end Sys2Proof.Machine
end

section
/-! PROOF. Decode and encode are inverse to each other, and the rows of the opcode map say where both are defined: O1 to O5
(30_encoding.md R100 to R107). -/

namespace Sys2Proof

/-! ### Decoding an encoded instruction (R102, R105) -/

/-- The decoder's nibbles are those that the format put there, so it takes the instruction's own branch. -/
@[simp] theorem decodeWord_encode (i : Instr) : decodeWord (encode i) = some i := by
  cases i with
  | cls | ret => rfl
  | jp | call | ldI | jpV0 => simp [encode, decodeWord]
  | seImm | sneImm | ldImm | addImm | rnd => simp [encode, decodeWord]
  | seReg | sneReg | drw => simp [encode, decodeWord, regField]
  | ldReg | orReg | andReg | xorReg | addReg | subReg | shr | subnReg | shl => simp [encode, decodeWord, decodeArith]
  | skp | sknp => simp [encode, decodeWord]
  | ldVxDt | ldVxK | ldDtVx | ldStVx | addI | ldF | ldB | storeRegs | loadRegs => simp [encode, decodeWord, decodeMisc]

/-- Settles O1: the two bytes make the encoded word again, and that word decodes to the instruction. -/
theorem decodeInvertsEncode : Obligations.DecodeInvertsEncode := by
  intro i rest
  simp only [encodeBytes, List.cons_append, List.nil_append, decodeBytes, wordOf_bytes, decodeWord_encode]

/-! ### A word is the format of its own fields (R101, R102) -/

theorem formatNNN_of_fields {w : Word} {o : BitVec 4} (htop : (fieldTop w).toNat = o.toNat) :
    formatNNN o (fieldNNN w) = w := by
  apply BitVec.eq_of_toNat_eq
  rw [formatNNN_toNat, ← htop, fieldTop_toNat, fieldNNN_toNat]
  omega

theorem formatXKK_of_fields {w : Word} {o : BitVec 4} (htop : (fieldTop w).toNat = o.toNat) :
    formatXKK o (fieldX w) (fieldKK w) = w := by
  apply BitVec.eq_of_toNat_eq
  rw [formatXKK_toNat, ← htop, fieldTop_toNat, fieldX_val, fieldKK_toNat]
  omega

theorem formatX_of_fields {w : Word} {o : BitVec 4} {f : Byte} (htop : (fieldTop w).toNat = o.toNat)
    (hkk : (fieldKK w).toNat = f.toNat) : formatX o (fieldX w) f = w :=
  BitVec.eq_of_toNat_eq hkk ▸ formatXKK_of_fields htop

theorem formatXY_of_fields {w : Word} {o f : BitVec 4} (htop : (fieldTop w).toNat = o.toNat)
    (hn : (fieldN w).val = f.toNat) : formatXY o (fieldX w) (fieldY w) f = w := by
  apply BitVec.eq_of_toNat_eq
  rw [formatXY_toNat, ← htop, ← hn, fieldTop_toNat, fieldX_val, fieldY_val, fieldN_val]
  omega

/-! ### Encoding a decoded instruction -/

theorem encode_of_decodeArith {w : Word} {i : Instr} (htop : (fieldTop w).toNat = 0x8) (h : decodeArith w = some i) :
    encode i = w := by
  unfold decodeArith at h
  split at h
  case h_10 => cases h
  all_goals
    obtain rfl := Option.some.inj h
    exact formatXY_of_fields htop ‹(fieldN w).val = _›

theorem encode_of_decodeMisc {w : Word} {i : Instr} (htop : (fieldTop w).toNat = 0xF) (h : decodeMisc w = some i) :
    encode i = w := by
  unfold decodeMisc at h
  split at h
  case h_10 => cases h
  all_goals
    obtain rfl := Option.some.inj h
    exact formatX_of_fields htop ‹(fieldKK w).toNat = _›

theorem encode_of_decodeWord {w : Word} {i : Instr} (h : decodeWord w = some i) : encode i = w := by
  unfold decodeWord at h
  split at h <;> rename_i htop
  case h_1 => -- `00E0`, `00EE`
    split_ifs at h with hcls hret <;> obtain rfl := Option.some.inj h
    · exact hcls.symm
    · exact hret.symm
  case h_2 | h_3 | h_11 | h_12 => -- format `NNN`
    obtain rfl := Option.some.inj h
    exact formatNNN_of_fields htop
  case h_4 | h_5 | h_7 | h_8 | h_13 => -- format `XKK`
    obtain rfl := Option.some.inj h
    exact formatXKK_of_fields htop
  case h_6 | h_10 => -- `5xy0`, `9xy0`
    split_ifs at h with hn
    obtain rfl := Option.some.inj h
    exact formatXY_of_fields htop hn
  case h_9 => exact encode_of_decodeArith htop h
  case h_14 => -- `Dxyn`
    obtain rfl := Option.some.inj h
    exact formatXY_of_fields htop rfl
  case h_15 => -- `Ex9E`, `ExA1`
    split_ifs at h with hskp hsknp <;> obtain rfl := Option.some.inj h
    · exact formatX_of_fields htop (congrArg BitVec.toNat hskp)
    · exact formatX_of_fields htop (congrArg BitVec.toNat hsknp)
  case h_16 => exact encode_of_decodeMisc htop h
  case h_17 => cases h

/-- Settles O2, branch by branch of the decoder: each word is the format of the fields that its branch reads. -/
theorem encodeInvertsDecode : Obligations.EncodeInvertsDecode := fun _ _ h => encode_of_decodeWord h

/-! ### The rows of the opcode map (R104) -/

/-- An instruction's word belongs to the instruction's row. -/
theorem row_admits_encode : ∀ i : Instr, i.row.admits (encode i)
  | .cls => Laws.RowMatch.cls
  | .ret => Laws.RowMatch.ret
  | .jp nnn => Laws.RowMatch.jp nnn
  | .call nnn => Laws.RowMatch.call nnn
  | .seImm x kk => Laws.RowMatch.seImm x kk
  | .sneImm x kk => Laws.RowMatch.sneImm x kk
  | .seReg x y => Laws.RowMatch.seReg x y
  | .ldImm x kk => Laws.RowMatch.ldImm x kk
  | .addImm x kk => Laws.RowMatch.addImm x kk
  | .ldReg x y => Laws.RowMatch.ldReg x y
  | .orReg x y => Laws.RowMatch.orReg x y
  | .andReg x y => Laws.RowMatch.andReg x y
  | .xorReg x y => Laws.RowMatch.xorReg x y
  | .addReg x y => Laws.RowMatch.addReg x y
  | .subReg x y => Laws.RowMatch.subReg x y
  | .shr x y => Laws.RowMatch.shr x y
  | .subnReg x y => Laws.RowMatch.subnReg x y
  | .shl x y => Laws.RowMatch.shl x y
  | .sneReg x y => Laws.RowMatch.sneReg x y
  | .ldI nnn => Laws.RowMatch.ldI nnn
  | .jpV0 nnn => Laws.RowMatch.jpV0 nnn
  | .rnd x kk => Laws.RowMatch.rnd x kk
  | .drw x y n => Laws.RowMatch.drw x y n
  | .skp x => Laws.RowMatch.skp x
  | .sknp x => Laws.RowMatch.sknp x
  | .ldVxDt x => Laws.RowMatch.ldVxDt x
  | .ldVxK x => Laws.RowMatch.ldVxK x
  | .ldDtVx x => Laws.RowMatch.ldDtVx x
  | .ldStVx x => Laws.RowMatch.ldStVx x
  | .addI x => Laws.RowMatch.addI x
  | .ldF x => Laws.RowMatch.ldF x
  | .ldB x => Laws.RowMatch.ldB x
  | .storeRegs x => Laws.RowMatch.storeRegs x
  | .loadRegs x => Laws.RowMatch.loadRegs x

/-- The instruction of a row, with its operands read from the fields of `w`. -/
def instrOfRow (w : Word) : Fin 34 → Instr
  | 0 => .cls
  | 1 => .ret
  | 2 => .jp (fieldNNN w)
  | 3 => .call (fieldNNN w)
  | 4 => .seImm (fieldX w) (fieldKK w)
  | 5 => .sneImm (fieldX w) (fieldKK w)
  | 6 => .seReg (fieldX w) (fieldY w)
  | 7 => .ldImm (fieldX w) (fieldKK w)
  | 8 => .addImm (fieldX w) (fieldKK w)
  | 9 => .ldReg (fieldX w) (fieldY w)
  | 10 => .orReg (fieldX w) (fieldY w)
  | 11 => .andReg (fieldX w) (fieldY w)
  | 12 => .xorReg (fieldX w) (fieldY w)
  | 13 => .addReg (fieldX w) (fieldY w)
  | 14 => .subReg (fieldX w) (fieldY w)
  | 15 => .shr (fieldX w) (fieldY w)
  | 16 => .subnReg (fieldX w) (fieldY w)
  | 17 => .shl (fieldX w) (fieldY w)
  | 18 => .sneReg (fieldX w) (fieldY w)
  | 19 => .ldI (fieldNNN w)
  | 20 => .jpV0 (fieldNNN w)
  | 21 => .rnd (fieldX w) (fieldKK w)
  | 22 => .drw (fieldX w) (fieldY w) (fieldN w)
  | 23 => .skp (fieldX w)
  | 24 => .sknp (fieldX w)
  | 25 => .ldVxDt (fieldX w)
  | 26 => .ldVxK (fieldX w)
  | 27 => .ldDtVx (fieldX w)
  | 28 => .ldStVx (fieldX w)
  | 29 => .addI (fieldX w)
  | 30 => .ldF (fieldX w)
  | 31 => .ldB (fieldX w)
  | 32 => .storeRegs (fieldX w)
  | 33 => .loadRegs (fieldX w)
  | ⟨k + 34, hk⟩ => absurd hk (by omega)

theorem rowNumber_instrOfRow (w : Word) (n : Fin 34) : (instrOfRow w n).rowNumber = n := by
  fin_cases n <;> rfl

theorem fieldTop_of_mask_F000 {w p : Word} (h : w &&& 0xF000 = p) : (fieldTop w).toNat = (fieldTop p).toNat := by
  rw [← h, mask_F000, fieldTop_formatNNN]

theorem fields_of_mask_F00F {w p : Word} (h : w &&& 0xF00F = p) :
    (fieldTop w).toNat = (fieldTop p).toNat ∧ (fieldN w).val = (fieldN p).val := by
  rw [← h, mask_F00F, fieldTop_formatXY, fieldN_formatXY]
  exact ⟨rfl, rfl⟩

theorem fields_of_mask_F0FF {w p : Word} (h : w &&& 0xF0FF = p) :
    (fieldTop w).toNat = (fieldTop p).toNat ∧ (fieldKK w).toNat = (fieldKK p).toNat := by
  rw [← h, mask_F0FF, fieldTop_formatX, fieldKK_formatX]
  exact ⟨rfl, rfl⟩

/-- The bits that a row's mask keeps are its instruction's fixed nibbles, and the other bits are its operands. -/
theorem encode_instrOfRow {w : Word} {n : Fin 34} (h : opcodeMap[n].admits w) : encode (instrOfRow w n) = w := by
  match n, h with
  | 0, h | 1, h => exact h.symm.trans BitVec.and_allOnes
  | 2, h | 3, h | 19, h | 20, h => exact formatNNN_of_fields (fieldTop_of_mask_F000 h)
  | 4, h | 5, h | 7, h | 8, h | 21, h => exact formatXKK_of_fields (fieldTop_of_mask_F000 h)
  | 22, h => exact formatXY_of_fields (fieldTop_of_mask_F000 h) rfl
  | 6, h | 9, h | 10, h | 11, h | 12, h | 13, h | 14, h | 15, h | 16, h | 17, h | 18, h =>
    obtain ⟨htop, hn⟩ := fields_of_mask_F00F h
    exact formatXY_of_fields htop hn
  | 23, h | 24, h | 25, h | 26, h | 27, h | 28, h | 29, h | 30, h | 31, h | 32, h | 33, h =>
    obtain ⟨htop, hkk⟩ := fields_of_mask_F0FF h
    exact formatX_of_fields htop hkk
  | ⟨k + 34, hk⟩, _ => omega

theorem decodeWord_of_admits {w : Word} {n : Fin 34} (h : opcodeMap[n].admits w) : decodeWord w = some (instrOfRow w n) := by
  rw [← decodeWord_encode (instrOfRow w n), encode_instrOfRow h]

/-- Settles O3: the decoder answers the instruction of any row that matches, so two rows that match are one. -/
theorem opcodeRowsPartitionTheWords : Obligations.OpcodeRowsPartitionTheWords := by
  intro w
  refine ⟨fun m n hm hn => ?_, fun i hi => ?_, fun n hn => ⟨_, decodeWord_of_admits hn, rowNumber_instrOfRow w n⟩⟩
  · have hsame : instrOfRow w m = instrOfRow w n :=
      Option.some.inj ((decodeWord_of_admits hm).symm.trans (decodeWord_of_admits hn))
    rw [← rowNumber_instrOfRow w m, hsame, rowNumber_instrOfRow]
  · obtain rfl := encode_of_decodeWord hi
    exact row_admits_encode i

/-! ### The illegal words (R107) -/

theorem decodeArith_eq_none_iff (w : Word) :
    decodeArith w = none ↔ w.toNat % 16 ∈ [0x8, 0x9, 0xA, 0xB, 0xC, 0xD, 0xF] := by
  unfold decodeArith
  rw [fieldN_val]
  split
  case h_10 =>
    simp only [imp_false, List.mem_cons, List.not_mem_nil, or_false, true_iff] at *
    omega
  all_goals simp [*]

theorem decodeMisc_eq_none_iff (w : Word) :
    decodeMisc w = none ↔ w.toNat % 256 ∉ [0x07, 0x0A, 0x15, 0x18, 0x1E, 0x29, 0x33, 0x55, 0x65] := by
  unfold decodeMisc
  rw [fieldKK_toNat]
  split
  case h_10 =>
    simp only [imp_false, List.mem_cons, List.not_mem_nil, or_false, true_iff] at *
    omega
  all_goals simp [*]

theorem fieldKK_eq_iff (w : Word) (b : Byte) : fieldKK w = b ↔ w.toNat % 256 = b.toNat := by
  rw [← BitVec.toNat_inj, fieldKK_toNat]

/-- Settles O4: each branch of the decoder refuses the words of its own line of the table. -/
theorem illegalWordsByTopNibble : Obligations.IllegalWordsByTopNibble := by
  intro w
  have hw := w.isLt
  unfold decodeWord
  rw [fieldTop_toNat]
  split <;> rename_i htop
  case h_1 => -- `00E0`, `00EE`
    simp [htop, ite_eq_iff]
  case h_6 | h_10 => -- `5xy0`, `9xy0`
    simp [htop, fieldN_val]
  case h_9 => -- family 8
    simp [htop, decodeArith_eq_none_iff]
  case h_15 => -- `Ex9E`, `ExA1`
    simp [htop, fieldKK_eq_iff, ite_eq_iff]
  case h_16 => -- family F
    simp [htop, decodeMisc_eq_none_iff]
  case h_17 => -- a nibble is below 16
    simp only [imp_false] at *
    omega
  all_goals simp [htop] -- a family in which every word is legal

/-- Settles O5: the decoder computes each of the ten words. -/
theorem writtenOutWordsDecode : Obligations.WrittenOutWordsDecode := by
  unfold Obligations.WrittenOutWordsDecode
  decide

end Sys2Proof
end

section
/-! PROOF. What a step does with a word that matches no row: O8 (30_encoding.md R107, R108; 40_engine.md R133). -/

namespace Sys2Proof.Machine

theorem fieldTop_eq_zero_iff (op : Word) : fieldTop op = 0 ↔ op.toNat < 4096 := by
  rw [← BitVec.toNat_inj, fieldTop_toNat]
  exact Nat.div_eq_zero_iff_lt (by decide)

/-- `SYS nnn` only advances PC (R108b). -/
theorem State.illegal_of_sys {s : State} {op : Word} (hnop : s.cfg.sys = .nop) (htop : op.toNat < 4096) :
    s.illegal op = s.advance := if_pos ⟨hnop, (fieldTop_eq_zero_iff op).2 htop⟩

/-- Every other word of no row is a decode error (R133). -/
theorem State.illegal_of_not_sys {s : State} {op : Word} (h : s.cfg.sys = .decodeError ∨ 4096 ≤ op.toNat) :
    s.illegal op = s.raise (.decodeError s.pc op) := by
  refine if_neg fun ⟨hnop, htop⟩ => ?_
  obtain herror | htop' := h
  · simp [herror] at hnop
  · exact Nat.not_le.2 ((fieldTop_eq_zero_iff op).1 htop) htop'

/-- A fetch that no parameter refuses answers the word at PC (R132). -/
theorem State.fetch_of_accessible {s : State} (h : s.Accessible s.pc.toNat 2) : s.fetch = .ok s.wordAtPc := by
  simp only [State.fetch, State.rangeFault_of_accessible h, State.wordAtPc]

/-- The latch and the timer update leave what a fetch reads. -/
theorem State.BeginsStep.fetch_of_accessible {s u : State} (h : s.BeginsStep u) (hacc : s.Accessible s.pc.toNat 2) :
    u.pc = s.pc ∧ u.fetch = .ok s.wordAtPc := by
  obtain ⟨-, ⟨inp, es, -, rfl⟩ | ⟨-, rfl⟩⟩ := h <;> exact ⟨rfl, State.fetch_of_accessible hacc⟩

/-- Settles O8: the step fetches the word at PC after its timer update, and `illegal` says what becomes of it. -/
theorem unmatchedWordHaltsOrIsSys : Obligations.UnmatchedWordHaltsOrIsSys := by
  refine ⟨decodeWord_encode .cls, decodeWord_encode .ret, fun s u hbegin hacc hdecode => ?_⟩
  obtain ⟨hpc, hfetch⟩ := hbegin.fetch_of_accessible hacc
  obtain ⟨-, -, hcfg⟩ := hbegin.same
  have hstep : step s = .next (u.illegal s.wordAtPc) :=
    hbegin.step_eq.trans (State.fetchExec_of_illegal hfetch hdecode)
  rw [hstep, ← hcfg, ← hpc]
  exact ⟨fun hnop htop => congrArg _ (State.illegal_of_sys hnop htop),
    fun h => ⟨congrArg _ (State.illegal_of_not_sys h), rfl⟩⟩

end Sys2Proof.Machine
end

section
/-! PROOF. The step engine, read once for every statement about it: where a step of the core begins, which event a step of the machine
delivers, and what fetch, decode and execute can do. From it O6, O7, O9 to O13 and the invariant, O48 (40_engine.md R130 to R142). -/

namespace Sys2Proof.Machine

/-! ### Frames of the host's own updates -/

theorem SameExcept.setHost (s : State) (es : List HostEvent) : SameExcept [.boundary] s { s with host := es } := by
  intro p hp; cases p <;> simp [Part.same, State.getV, State.readByte] at hp ⊢

theorem SameExcept.setDraws (s : State) (n : Nat) : SameExcept [.boundary] s { s with draws := n } := by
  intro p hp; cases p <;> simp [Part.same, State.getV, State.readByte] at hp ⊢

theorem SameExcept.drain (s : State) : SameExcept [.disp] s s.drain := by
  intro p hp; cases p <;> simp [Part.same] at hp ⊢

theorem SameExcept.press (s : State) (k : Key) : SameExcept [.v, .pc, .status] s (s.press k) := by
  unfold State.press
  split
  · exact ((SameExcept.setV_advance s _ _).mono (by simp)).trans ((SameExcept.setStatus _ .running).mono (by simp))
  · exact SameExcept.refl s _

theorem SameExcept.cancel (s : State) : SameExcept [.status] s s.cancel := by
  obtain hlive | hended := s.status.live_or_ended
  · rw [State.cancel_of_live hlive]
    exact SameExcept.setStatus s .stopped
  · rw [State.cancel_of_ended hended]
    exact SameExcept.refl s _

/-- A frame that leaves PC and memory alone leaves the word at PC. -/
theorem SameExcept.wordAtPc_eq {ps : List Part} {s t : State} (h : SameExcept ps s t) (hpc : .pc ∉ ps) (hmem : .mem ∉ ps) :
    t.wordAtPc = s.wordAtPc := by
  have hp : t.pc = s.pc := h .pc hpc
  have hm (a : Nat) : t.readByte a = s.readByte a := h .mem hmem a
  simp only [State.wordAtPc, hp, hm]

/-! ### Where a step of the core begins (R130, R131, R134) -/

/-- A step of the core begins with the timer update of a state that differs at the boundary alone, its clock not behind. -/
theorem State.BeginsStep.before_tick {s u : State} (h : s.BeginsStep u) :
    ∃ w : State, u = w.timerUpdate ∧ SameExcept [.boundary] s w ∧ w.mem = s.mem ∧ w.cfg = s.cfg ∧ s.port.now ≤ w.port.now := by
  obtain ⟨-, ⟨inp, es, -, rfl⟩ | ⟨-, rfl⟩⟩ := h
  · exact ⟨_, rfl, (SameExcept.setHost s es).trans (SameExcept.latch _ inp), rfl, rfl, Nat.le_max_left ..⟩
  · exact ⟨_, rfl, (SameExcept.setDraws s _).trans (SameExcept.latch _ _), rfl, rfl, Nat.le_max_left ..⟩

theorem State.BeginsStep.sameExcept {s u : State} (h : s.BeginsStep u) :
    SameExcept [.dt, .st, .tickRef, .boundary] s u := by
  obtain ⟨w, rfl, hframe, -⟩ := h.before_tick
  exact (hframe.mono (by simp)).trans ((SameExcept.timerUpdate w).mono (by simp))

/-- Settles O6: the step is `fetchExec` after the timer update, and the fetch there answers the word at PC. -/
theorem stepRunsTheDecodedInstruction : Obligations.StepRunsTheDecodedInstruction := by
  intro s u i hbegin hacc hdecode
  obtain ⟨-, -, hcfg⟩ := hbegin.same
  obtain ⟨-, hfetch⟩ := hbegin.fetch_of_accessible hacc
  exact ⟨hbegin.sameExcept, hcfg, hbegin.step_eq.trans (State.fetchExec_of_instr hfetch hdecode)⟩

/-! ### The timer update (R45, R134) -/

/-- The test over the naturals is the test of R134 over the rationals (log entry 12). -/
theorem State.tickDue_iff_period_le {s : State} (hwf : s.cfg.wf = true) :
    s.tickDue = true ↔ (s.cfg.tickNum : ℚ) / s.cfg.tickDen ≤ (s.port.now : ℚ) - s.tickRef := by
  obtain ⟨-, hden⟩ : 0 < s.cfg.tickNum ∧ 0 < s.cfg.tickDen := by simpa [Config.wf] using hwf
  have hdenQ : (0 : ℚ) < s.cfg.tickDen := Nat.cast_pos.2 hden
  rw [State.tickDue_iff, ← Nat.cast_le (α := ℚ), div_le_iff₀ hdenQ]
  push_cast
  constructor <;> intro h <;> linarith

/-- Settles O10: the step is `fetchExec` of a timer update, whose one test is that of R134. -/
theorem timerUpdateOpensEveryStep : Obligations.TimerUpdateOpensEveryStep := by
  intro s u hwf hbegin
  refine ⟨hbegin.step_eq, ?_⟩
  obtain ⟨w, rfl, hframe, -, hcfg, -⟩ := hbegin.before_tick
  have hdt : w.dt = s.dt := hframe .dt (by simp)
  have hst : w.st = s.st := hframe .st (by simp)
  have href : w.tickRef = s.tickRef := hframe .tickRef (by simp)
  have hdue := State.tickDue_iff_period_le (hcfg ▸ hwf)
  rw [hcfg, href] at hdue
  refine ⟨fun hle => ?_, fun hlt => ?_, fun hnum hden => ?_⟩
  · have hdue' : w.tickDue = true := hdue.2 hle
    simp [hdue', decTimer_toNat, hdt, hst]
  · have hdue' : w.tickDue = false := Bool.eq_false_iff.2 fun h => hlt.not_ge (hdue.1 h)
    simp [hdue', hdt, hst, href]
  · rw [hnum, hden, div_le_iff₀ (by norm_num), mul_comm]
    norm_cast

/-! ### Fetch (R132) -/

theorem wordOf_toNat (hi lo : Byte) : (wordOf hi lo).toNat = 256 * hi.toNat + lo.toNat := by
  rw [wordOf, BitVec.toNat_append, ← Nat.shiftLeft_add_eq_or_of_lt lo.isLt, Nat.shiftLeft_eq, Nat.mul_comm]

/-- A step of the core fetches what stood at PC before it. -/
theorem State.BeginsStep.fetch_eq {s u : State} (h : s.BeginsStep u) : u.fetch = s.fetch := by
  obtain ⟨w, rfl, hframe, hmem, hcfg, -⟩ := h.before_tick
  exact State.fetch_congr hmem hcfg (hframe .pc (by simp))

/-- Settles O9: the bytes at PC and PC + 1 as one word where the fetch is accessible, else the error of its range. -/
theorem fetchWrapsOrStops : Obligations.FetchWrapsOrStops := by
  refine ⟨fun s hwrap => ?_, fun s _ hpc => ?_, fun s u hbegin hfault hpc => ?_⟩
  · have hmap : mapAddr (s.pc.toNat + 1) = (s.pc + 1).toNat % 4096 := by
      simp only [mapAddr, memSize]
      bv_omega
    refine ⟨_, State.fetch_of_accessible (.inl hwrap), ?_⟩
    rw [State.wordAtPc, wordOf_toNat, State.readByte, State.readByte, hmap]
    rfl
  · refine ⟨_, State.fetch_of_accessible (.inr (.inr (by omega))), ?_⟩
    rw [State.wordAtPc, wordOf_toNat, State.readByte_of_lt s (by omega), State.readByte_of_lt s (by omega)]
  · have hrange : s.rangeFault s.pc.toNat 2 = some (max s.pc.toNat memSize) :=
      (State.rangeFault_eq_some ..).2 ⟨hfault, by decide, by rw [memSize]; omega, rfl⟩
    have hfetch : u.fetch = .error (.ubStop s.pc none (.memoryRange (max s.pc.toNat memSize))) :=
      hbegin.fetch_eq.trans (by simp only [State.fetch, hrange])
    exact ⟨_, State.outOfRange_of_rangeFault hrange, hbegin.step_eq.trans (State.fetchExec_of_error hfetch)⟩

/-! ### Placing a word -/

theorem State.placeWord_wordAtPc (s : State) (op : Word) : (s.placeWord op).wordAtPc = op := by
  have hhigh := s.readByte_storeBytes s.pc.toNat 0 [op.extractLsb' 8 8, op.extractLsb' 0 8] (by simp [memSize]) (by simp)
  have hlow := s.readByte_storeBytes s.pc.toNat 1 [op.extractLsb' 8 8, op.extractLsb' 0 8] (by simp [memSize]) (by simp)
  rw [Nat.add_zero] at hhigh
  rw [State.wordAtPc, State.placeWord_pc, State.placeWord_readByte, State.placeWord_readByte, hhigh, hlow]
  exact wordOf_bytes op

/-- The events before the next step request are dropped, so a step of the core is due. -/
theorem State.placeWord_beginsStep (s : State) (op : Word) : ∃ u, (s.placeWord op).BeginsStep u := by
  obtain hbegin | ⟨e, es, hhost, he⟩ := State.beginsStep_or_other_event (s.placeWord_status op)
  · exact hbegin
  · have hhost' : s.host.dropWhile (fun e => !e.isStep) = e :: es := hhost
    have hfirst := List.head?_dropWhile_not (fun e : HostEvent => !e.isStep) s.host
    simp [hhost', he] at hfirst

/-- Settles O7: the placed bytes are the word at PC, where the fetch is still accessible. -/
theorem placedWordIsFetchedNext : Obligations.PlacedWordIsFetchedNext := by
  intro s nbits w hacc
  refine ⟨?_, s.placeWord_beginsStep _⟩
  rw [State.withFetchWord, State.fetch_of_accessible, State.placeWord_wordAtPc]
  simpa [State.Accessible] using hacc

/-! ### The event that a step of the machine delivers (R264) -/

/-- A step of the machine is a step of the running core, or another event, or it consumes at most a step request. -/
theorem step_begins_or_delivers {s t : State} (h : step s = .next t) :
    (∃ u, s.BeginsStep u ∧ u.fetchExec = .next t) ∨
    (∃ e es, s.host = e :: es ∧ e.isStep = false ∧ State.deliver { s with host := es } e = .next t) ∨
    (s.status ≠ .running ∧ ∃ es, t = { s with host := es }) := by
  by_cases hr : s.status = .running
  · obtain ⟨u, hbegin⟩ | ⟨e, es, hhost, he⟩ := State.beginsStep_or_other_event hr
    · exact .inl ⟨u, hbegin, hbegin.step_eq.symm.trans h⟩
    · exact .inr (.inl ⟨e, es, hhost, he, (step_of_cons hhost).symm.trans h⟩)
  · obtain ⟨e, es, hhost, hdel⟩ | ⟨-, hrun, -⟩ | ⟨-, -, rfl⟩ := step_cases h
    · cases he : e.isStep with
      | false => exact .inr (.inl ⟨e, es, hhost, he, hdel⟩)
      | true =>
        cases e with
        | step inp =>
          have hidle := State.runStep_not_running (s := { s with host := es }) inp hr
          exact .inr (.inr ⟨hr, es, (Host.Outcome.next.inj (hidle.symm.trans hdel)).symm⟩)
        | press | cancel | drain | load => cases he
    · exact absurd hrun hr
    · exact .inr (.inr ⟨hr, _, rfl⟩)

/-- An event that is no load and no step of a running core writes only what a press, a cancellation and a drain write. -/
theorem State.deliver_sameExcept {s t : State} {e : HostEvent} (he : e.isStep = false) (hload : ∀ t0 rom, e ≠ .load t0 rom)
    (h : s.deliver e = .next t) : SameExcept [.v, .pc, .disp, .status] s t := by
  cases e with
  | step => cases he
  | press k =>
    obtain rfl := Host.Outcome.next.inj h
    exact (SameExcept.press s k).mono (by simp)
  | cancel =>
    obtain rfl := Host.Outcome.next.inj h
    exact (SameExcept.cancel s).mono (by simp)
  | drain =>
    obtain rfl := Host.Outcome.next.inj h
    exact (SameExcept.drain s).mono (by simp)
  | load t0 rom => exact absurd rfl (hload t0 rom)

/-! ### Outside `Running` (R141) -/

/-- What an event that is no step request makes of a waiting core's run state. -/
theorem State.deliver_waiting {s t : State} {e : HostEvent} {x : Reg} (hw : s.status = .waitKey x) (he : e.isStep = false)
    (h : s.deliver e = .next t) :
    t.status = .waitKey x ∨ (∃ k, e = .press k ∧ t.status = .running) ∨ (e = .cancel ∧ t.status = .stopped) := by
  cases e with
  | step => cases he
  | press k =>
    obtain rfl := Host.Outcome.next.inj h
    exact .inr (.inl ⟨k, rfl, congrArg State.status (State.press_waitKey k hw)⟩)
  | cancel =>
    obtain rfl := Host.Outcome.next.inj h
    exact .inr (.inr ⟨rfl, congrArg State.status (State.cancel_of_live (.inr ⟨x, hw⟩))⟩)
  | drain => exact .inl (Host.Outcome.next.inj h ▸ hw)
  | load t0 rom =>
    obtain rfl := Host.Outcome.next.inj ((State.reload_of_live t0 rom (.inr ⟨x, hw⟩)).symm.trans h)
    exact .inl hw

/-- An ended core answers a drain; every other event short of a load leaves it as it is. -/
theorem State.deliver_ended {s t : State} {e : HostEvent} (hended : s.status = .stopped ∨ ∃ e, s.status = .halted e)
    (he : e.isStep = false) (hload : ∀ t0 rom, e ≠ .load t0 rom) (h : s.deliver e = .next t) :
    t = s ∨ (e = .drain ∧ t = s.drain) := by
  cases e with
  | step => cases he
  | press k =>
    refine .inl ((Host.Outcome.next.inj h).symm.trans (State.press_of_not_waiting k fun x hw => ?_))
    simp [hw] at hended
  | cancel => exact .inl ((Host.Outcome.next.inj h).symm.trans (State.cancel_of_ended hended))
  | drain => exact .inr ⟨rfl, (Host.Outcome.next.inj h).symm⟩
  | load t0 rom => exact absurd rfl (hload t0 rom)

theorem State.ne_load_of_not_loadIsNext {s : State} (hl : ¬ s.LoadIsNext) {e : HostEvent} {es : List HostEvent}
    (hhost : s.host = e :: es) (t0 : Nat) (rom : List Byte) : e ≠ .load t0 rom := by
  rintro rfl
  exact hl ⟨t0, rom, es, hhost⟩

/-- Settles O12: a step of the core begins in `Running` alone, and `deliver_waiting` and `deliver_ended` say what the other events do. -/
theorem noStepOutsideRunning : Obligations.NoStepOutsideRunning := by
  refine ⟨fun s inp es hr hhost => ?_, fun s t x hw h => ?_, fun s t hended hl h => ?_⟩
  · exact (step_of_cons hhost).trans (State.runStep_not_running (s := { s with host := es }) inp hr)
  · obtain ⟨u, ⟨hr, -⟩, -⟩ | ⟨e, es, hhost, he, hdel⟩ | ⟨-, es, rfl⟩ := step_begins_or_delivers h
    · simp [hw] at hr
    · obtain hwait | ⟨k, rfl, hrun⟩ | ⟨rfl, hstop⟩ := State.deliver_waiting (s := { s with host := es }) hw he hdel
      · exact .inl hwait
      · exact .inr (.inl ⟨k, es, hhost, hrun⟩)
      · exact .inr (.inr ⟨es, hhost, hstop⟩)
    · exact .inl hw
  · obtain ⟨u, ⟨hr, -⟩, -⟩ | ⟨e, es, hhost, he, hdel⟩ | ⟨-, es, rfl⟩ := step_begins_or_delivers h
    · simp [hr] at hended
    · have hpop := (SameExcept.setHost s es).mono (qs := [.disp, .boundary]) (by simp)
      obtain rfl | ⟨rfl, rfl⟩ := State.deliver_ended (s := { s with host := es }) hended he (State.ne_load_of_not_loadIsNext hl hhost) hdel
      · exact ⟨hpop, rfl, .inr rfl⟩
      · exact ⟨hpop.trans ((SameExcept.drain _).mono (by simp)), rfl, .inl ⟨es, hhost⟩⟩
    · exact ⟨(SameExcept.setHost s es).mono (by simp), rfl, .inr rfl⟩

/-! ### The record of an error (R250 to R254) -/

/-- An instruction's error has the instruction's own word in its record, and its cause stands. -/
theorem Raises.trueOf {s : State} {i : Instr} {e : Error} (h : Raises s i e) (hdecode : decodeWord s.wordAtPc = some i) :
    e.TrueOf s := by
  have hword : encode i = s.wordAtPc := encode_of_decodeWord hdecode
  cases h with
  | overflow nnn hfull => exact ⟨rfl, hword, hfull, nnn, decodeWord_encode _⟩
  | underflow hempty => exact ⟨rfl, hword, hempty, decodeWord_encode _⟩
  | range _ hrange => exact ⟨rfl, hword, i, decodeWord_encode i, State.outOfRange_of_rangeFault hrange⟩
  | skp x hkey =>
    obtain ⟨hindex, hstop⟩ := (State.keyPressed_eq_none ..).1 hkey
    exact ⟨rfl, hword, hstop, hindex, x, .inl (decodeWord_encode _), rfl⟩
  | sknp x hkey =>
    obtain ⟨hindex, hstop⟩ := (State.keyPressed_eq_none ..).1 hkey
    exact ⟨rfl, hword, hstop, hindex, x, .inr (decodeWord_encode _), rfl⟩

/-- A record speaks of PC, memory, I, SP, the registers and the parameters alone. -/
theorem Error.TrueOf.congr {s t : State} {e : Error} (htrue : e.TrueOf s)
    (h : SameExcept [.dt, .st, .disp, .tickRef, .status, .boundary] s t) (hcfg : t.cfg = s.cfg) : e.TrueOf t := by
  have hpc : t.pc = s.pc := h .pc (by simp)
  have hi : t.i = s.i := h .i (by simp)
  have hv (r : Reg) : t.getV r = s.getV r := h .v (by simp) r
  obtain ⟨hsp, -⟩ : t.sp = s.sp ∧ t.stack = s.stack := h .stack (by simp)
  have hword : t.wordAtPc = s.wordAtPc := h.wordAtPc_eq (by simp) (by simp)
  unfold Error.TrueOf at htrue ⊢
  split at htrue
  case h_7 => exact htrue.elim
  all_goals simpa only [hpc, hi, hv, hsp, hword, hcfg, State.OutOfRange] using htrue

/-! ### Fetch, decode and execute -/

/-- The instruction at PC runs, or a `SYS nnn` advances, or an error is raised whose record is true (R132, R133, R108). -/
theorem State.fetchExec_cases {s t : State} (h : s.fetchExec = .next t) :
    (∃ i, decodeWord s.wordAtPc = some i ∧ exec i s = .next t) ∨ t = s.advance ∨ ∃ e : Error, e.TrueOf s ∧ t = s.raise e := by
  obtain ⟨-, hfetch⟩ | ⟨a, hrange, hfetch⟩ := s.fetch_cases
  · cases hdecode : decodeWord s.wordAtPc with
    | some i => exact .inl ⟨i, rfl, (State.fetchExec_of_instr hfetch hdecode).symm.trans h⟩
    | none =>
      obtain rfl := Host.Outcome.next.inj ((State.fetchExec_of_illegal hfetch hdecode).symm.trans h)
      by_cases hsys : s.cfg.sys = .nop ∧ fieldTop s.wordAtPc = 0
      · exact .inr (.inl (if_pos hsys))
      · have htrue : Error.TrueOf s (.decodeError s.pc s.wordAtPc) :=
          ⟨rfl, rfl, hdecode, fun hnop htop => hsys ⟨hnop, htop⟩⟩
        exact .inr (.inr ⟨_, htrue, if_neg hsys⟩)
  · have htrue : Error.TrueOf s (.ubStop s.pc none (.memoryRange a)) := ⟨rfl, State.outOfRange_of_rangeFault hrange⟩
    exact .inr (.inr ⟨_, htrue, Host.Outcome.next.inj (h.symm.trans (State.fetchExec_of_error hfetch))⟩)

/-- A part that the instruction at PC does not write stays, PC and the run state apart. -/
theorem State.fetchExec_part_same {s t : State} (h : s.fetchExec = .next t) {p : Part} (hpc : p ≠ .pc) (hstatus : p ≠ .status)
    (hp : ∀ i, decodeWord s.wordAtPc = some i → p ∉ writtenParts i) : p.same s t := by
  obtain ⟨i, hdecode, hexec⟩ | rfl | ⟨e, -, rfl⟩ := State.fetchExec_cases h
  · exact exec_sameExcept hexec p (hp i hdecode)
  · exact SameExcept.advance s p (by simpa using hpc)
  · exact SameExcept.raise s e p (by simpa using hstatus)

/-- A running core runs on, or begins the wait of the `Fx0A` at PC, or raises an error whose record is true; the last two change
nothing but the run state. -/
theorem State.fetchExec_ends {s t : State} (hr : s.status = .running) (h : s.fetchExec = .next t) :
    t.status = .running ∨ (∃ x, decodeWord s.wordAtPc = some (.ldVxK x) ∧ t = { s with status := .waitKey x }) ∨
      ∃ e : Error, e.TrueOf s ∧ t = s.raise e := by
  obtain ⟨i, hdecode, hexec⟩ | rfl | hraise := State.fetchExec_cases h
  · obtain ⟨x, rfl, rfl⟩ | hkeep | ⟨e, hraises, rfl⟩ := exec_cases hexec
    · exact .inr (.inl ⟨x, hdecode, rfl⟩)
    · exact .inl (hkeep.trans hr)
    · exact .inr (.inr ⟨e, hraises.trueOf hdecode, rfl⟩)
  · exact .inl hr
  · exact .inr (.inr hraise)

/-- An error's record, true where it is raised, is true of the state that the raise leaves. -/
theorem Error.TrueOf.raise {s : State} {e : Error} (h : e.TrueOf s) : e.TrueOf (s.raise e) :=
  h.congr ((SameExcept.raise s e).mono (by simp)) rfl

/-- Settles O13: of the three ends of a step, the raise alone leaves the core halted. -/
theorem raisingStepChangesNothingElse : Obligations.RaisingStepChangesNothingElse := by
  intro s u t e hbegin h hhalt
  obtain ⟨hru, -, -⟩ := hbegin.same
  obtain hrun | ⟨x, -, rfl⟩ | ⟨e', htrue, rfl⟩ := State.fetchExec_ends hru (hbegin.step_eq.symm.trans h)
  · simp [hrun] at hhalt
  · cases hhalt
  · obtain rfl := Status.halted.inj hhalt
    exact ⟨rfl, htrue.raise⟩

/-! ### The timers over a step (R135) -/

theorem dt_not_mem_writtenParts {i : Instr} (h : ∀ x, i ≠ .ldDtVx x) : .dt ∉ writtenParts i := by
  cases i with
  | ldDtVx x => exact absurd rfl (h x)
  | _ => simp [writtenParts]

theorem st_not_mem_writtenParts {i : Instr} (h : ∀ x, i ≠ .ldStVx x) : .st ∉ writtenParts i := by
  cases i with
  | ldStVx x => exact absurd rfl (h x)
  | _ => simp [writtenParts]

/-- The timer stays or goes down by 1. -/
def FallsByAtMostOne (a b : Byte) : Prop := b.toNat ≤ a.toNat ∧ a.toNat ≤ b.toNat + 1

theorem FallsByAtMostOne.refl (a : Byte) : FallsByAtMostOne a a := ⟨Nat.le_refl _, Nat.le_succ _⟩

theorem FallsByAtMostOne.tick (due : Bool) (a : Byte) : FallsByAtMostOne a (if due then decTimer a else a) := by
  cases due with
  | false => exact FallsByAtMostOne.refl a
  | true => simp only [FallsByAtMostOne, if_true, decTimer_toNat]; omega

theorem State.BeginsStep.timers_fall {s u : State} (h : s.BeginsStep u) :
    FallsByAtMostOne s.dt u.dt ∧ FallsByAtMostOne s.st u.st := by
  obtain ⟨w, rfl, hframe, -⟩ := h.before_tick
  have hdt : w.dt = s.dt := hframe .dt (by simp)
  have hst : w.st = s.st := hframe .st (by simp)
  rw [← hdt, ← hst]
  exact ⟨FallsByAtMostOne.tick w.tickDue w.dt, FallsByAtMostOne.tick w.tickDue w.st⟩

/-- Settles O11: a step of the core ticks and then leaves a timer that its instruction does not write; another event leaves both. -/
theorem timersFallByAtMostOnePerStep : Obligations.TimersFallByAtMostOnePerStep := by
  intro s t h hl
  obtain ⟨u, hbegin, hexec⟩ | ⟨e, es, hhost, he, hdel⟩ | ⟨-, es, rfl⟩ := step_begins_or_delivers h
  · obtain ⟨-, hword, -⟩ := hbegin.same
    obtain ⟨hdt, hst⟩ := hbegin.timers_fall
    rw [← hword]
    refine ⟨fun hno => ?_, fun hno => ?_⟩
    · have hkeep : t.dt = u.dt := State.fetchExec_part_same (p := .dt) hexec (by simp) (by simp)
        fun i hdecode => dt_not_mem_writtenParts fun x hx => hno x (hx ▸ hdecode)
      exact hkeep ▸ hdt
    · have hkeep : t.st = u.st := State.fetchExec_part_same (p := .st) hexec (by simp) (by simp)
        fun i hdecode => st_not_mem_writtenParts fun x hx => hno x (hx ▸ hdecode)
      exact hkeep ▸ hst
  · have hframe := State.deliver_sameExcept he (State.ne_load_of_not_loadIsNext hl hhost) hdel
    have hdt : t.dt = s.dt := hframe .dt (by simp)
    have hst : t.st = s.st := hframe .st (by simp)
    rw [hdt, hst]
    exact ⟨fun _ => FallsByAtMostOne.refl s.dt, fun _ => FallsByAtMostOne.refl s.st⟩
  · exact ⟨fun _ => FallsByAtMostOne.refl s.dt, fun _ => FallsByAtMostOne.refl s.st⟩

end Sys2Proof.Machine
end

section
/-! PROOF. Every step keeps the invariant: O48 (10_state.md R47, R48; 20_memory.md R71, R73; 40_engine.md R130 to R142; 45_keys_timers.md
R235; 60_exceptions.md R253). -/

namespace Sys2Proof.Machine

/-! ### The canonical form of memory -/

@[simp] theorem State.pushJump_mem (s : State) (op v target : Word) : (s.pushJump op v target).mem = s.mem := by
  unfold State.pushJump; split <;> rfl

@[simp] theorem State.popJump_mem (s : State) (op : Word) : (s.popJump op).mem = s.mem := by
  unfold State.popJump; split <;> rfl

theorem State.withRange_mem (s : State) (op : Word) (len : Nat) (k : State) :
    (s.withRange op len k).mem = s.mem ∨ (s.withRange op len k).mem = k.mem := by
  obtain ⟨-, hrun⟩ | ⟨a, -, hraise⟩ := State.withRange_cases s op len k
  · exact .inr (congrArg State.mem hrun)
  · exact .inl (by rw [hraise, State.raise_mem])

/-- An instruction leaves the list of bytes, or makes consecutive stores at I upward. -/
theorem exec_mem_cases {i : Instr} {s t : State} (h : exec i s = .next t) :
    t.mem = s.mem ∨ ∃ bs, t.mem = (s.storeBytes s.base bs).mem := by
  cases i with
  | cls | jp | jpV0 | seImm | sneImm | seReg | sneReg | ldImm | addImm | ldReg | orReg | andReg | xorReg | addReg | subReg
  | shr | subnReg | shl | rnd | ldVxDt | ldVxK | ldDtVx | ldStVx | ldI | addI | ldF =>
    obtain rfl := Host.Outcome.next.inj h
    exact .inl rfl
  | call =>
    obtain rfl := Host.Outcome.next.inj h
    exact .inl (State.pushJump_mem ..)
  | ret =>
    obtain rfl := Host.Outcome.next.inj h
    exact .inl (State.popJump_mem ..)
  | skp x | sknp x =>
    obtain rfl := Host.Outcome.next.inj h
    cases s.keyPressed (s.getV x) <;> exact .inl rfl
  | drw | loadRegs =>
    obtain rfl := Host.Outcome.next.inj h
    exact .inl ((State.withRange_mem ..).elim id id)
  | ldB | storeRegs =>
    obtain rfl := Host.Outcome.next.inj h
    exact (State.withRange_mem ..).imp_right fun hstore => ⟨_, hstore⟩

/-- Stores keep the canonical form, so every instruction does. -/
theorem exec_wf {i : Instr} {s t : State} (h : exec i s = .next t) (hs : s.mem.wf s.cfg.font = true) :
    t.mem.wf t.cfg.font = true := by
  obtain ⟨hcfg, -⟩ : Part.boundary.same s t := exec_sameExcept h .boundary (boundary_not_mem_writtenParts i)
  rw [hcfg]
  obtain hmem | ⟨bs, hmem⟩ := exec_mem_cases h
  · rwa [hmem]
  · rw [hmem]
    simpa using State.wf_storeBytes s.base bs hs

theorem State.fetchExec_wf {s t : State} (h : s.fetchExec = .next t) (hs : s.mem.wf s.cfg.font = true) :
    t.mem.wf t.cfg.font = true := by
  obtain ⟨i, -, hexec⟩ | rfl | ⟨e, -, rfl⟩ := State.fetchExec_cases h
  · exact exec_wf hexec hs
  · exact hs
  · exact hs

/-! ### The invariant of a core in each run state -/

/-- A running or stopped core has no wait and no record to vouch for. -/
theorem State.Inv.of_running_or_stopped {s : State} (hmem : s.mem.wf s.cfg.font = true) (htick : s.tickRef ≤ s.port.now)
    (hstatus : s.status = .running ∨ s.status = .stopped) : s.Inv where
  memCanonical := hmem
  tickNotAhead := htick
  waitAtItsInstruction := fun x hw => by obtain h | h := hstatus <;> simp [h] at hw
  haltedRecordTrue := fun e he => by obtain h | h := hstatus <;> simp [h] at he

/-- The invariant does not speak of the display, the timers and the host's events. -/
theorem State.Inv.congr {s t : State} (hs : s.Inv) (h : SameExcept [.dt, .st, .disp, .tickRef, .boundary] s t)
    (hmem : t.mem = s.mem) (hcfg : t.cfg = s.cfg) (htick : t.tickRef ≤ t.port.now) : t.Inv := by
  have hstatus : t.status = s.status := h .status (by simp)
  have hword : t.wordAtPc = s.wordAtPc := h.wordAtPc_eq (by simp) (by simp)
  refine ⟨by rw [hmem, hcfg]; exact hs.memCanonical, htick, fun x hw => ?_, fun e he => ?_⟩
  · rw [hword]
    exact hs.waitAtItsInstruction x (hstatus ▸ hw)
  · exact (hs.haltedRecordTrue e (hstatus ▸ he)).congr (h.mono (by simp)) hcfg

theorem State.Inv.setHost {s : State} (hs : s.Inv) (es : List HostEvent) : State.Inv { s with host := es } :=
  hs.congr ((SameExcept.setHost s es).mono (by simp)) rfl rfl hs.tickNotAhead

/-! ### A step of the core -/

/-- The latch lets the clock go on only, and a tick sets the reference to the clock (R130, R134). -/
theorem State.Inv.beginsStep {s u : State} (hs : s.Inv) (h : s.BeginsStep u) : u.Inv := by
  obtain ⟨w, rfl, hframe, hmem, hcfg, hclock⟩ := h.before_tick
  refine hs.congr (h.sameExcept.mono (by simp)) hmem hcfg ?_
  have href : w.tickRef = s.tickRef := hframe .tickRef (by simp)
  rw [State.timerUpdate_tickRef, State.timerUpdate_port]
  split
  · exact Nat.le_refl _
  · exact href ▸ hs.tickNotAhead.trans hclock

theorem tickRef_not_mem_writtenParts (i : Instr) : .tickRef ∉ writtenParts i := by
  cases i <;> simp [writtenParts]

theorem State.Inv.fetchExec {s t : State} (hs : s.Inv) (hr : s.status = .running) (h : s.fetchExec = .next t) : t.Inv := by
  obtain hrun | ⟨x, hdecode, rfl⟩ | ⟨e, htrue, rfl⟩ := State.fetchExec_ends hr h
  · have href : t.tickRef = s.tickRef :=
      State.fetchExec_part_same (p := .tickRef) h (by simp) (by simp) fun i _ => tickRef_not_mem_writtenParts i
    obtain ⟨-, hport, -, -⟩ := State.fetchExec_same_boundary h
    have htick : t.tickRef ≤ t.port.now := by
      rw [href, hport]
      exact hs.tickNotAhead
    exact .of_running_or_stopped (State.fetchExec_wf h hs.memCanonical) htick (.inl hrun)
  · exact ⟨hs.memCanonical, hs.tickNotAhead, fun y hy => Status.waitKey.inj hy ▸ hdecode, fun _ he => Status.noConfusion he⟩
  · exact ⟨hs.memCanonical, hs.tickNotAhead, fun _ hw => Status.noConfusion hw, fun e' he => Status.halted.inj he ▸ htrue.raise⟩

/-! ### The other events -/

/-- A press runs a waiting core on, whose memory and clock it leaves. -/
theorem State.Inv.press {s : State} (hs : s.Inv) (k : Key) : (s.press k).Inv := by
  by_cases hw : ∃ x, s.status = .waitKey x
  · obtain ⟨x, hx⟩ := hw
    rw [State.press_waitKey k hx]
    exact .of_running_or_stopped hs.memCanonical hs.tickNotAhead (.inl rfl)
  · rwa [State.press_of_not_waiting k (not_exists.1 hw)]

theorem State.Inv.cancel {s : State} (hs : s.Inv) : s.cancel.Inv := by
  obtain hlive | hended := s.status.live_or_ended
  · rw [State.cancel_of_live hlive]
    exact .of_running_or_stopped hs.memCanonical hs.tickNotAhead (.inr rfl)
  · rwa [State.cancel_of_ended hended]

theorem State.Inv.drain {s : State} (hs : s.Inv) : s.drain.Inv :=
  hs.congr ((SameExcept.drain s).mono (by simp)) rfl rfl hs.tickNotAhead

/-- A load leaves a live core, fails, or makes a new running core with its ROM in memory and its clock at its tick reference. -/
theorem State.Inv.reload {s t : State} (hs : s.Inv) {t0 : Nat} {rom : List Byte} (h : s.reload t0 rom = .next t) : t.Inv := by
  obtain hlive | hended := s.status.live_or_ended
  · obtain rfl := Host.Outcome.next.inj ((State.reload_of_live t0 rom hlive).symm.trans h)
    exact hs
  · obtain hfits | hlong := le_or_gt rom.length romMax
    · obtain rfl := Host.Outcome.next.inj ((State.reload_of_ended_of_le t0 hended hfits).symm.trans h)
      exact .of_running_or_stopped (State.wf_fresh_image s.cfg t0 hfits) (Nat.le_refl t0) (.inl rfl)
    · rw [State.reload_of_ended_of_gt t0 hended hlong] at h
      cases h

theorem State.Inv.deliver {s t : State} (hs : s.Inv) {e : HostEvent} (he : e.isStep = false) (h : s.deliver e = .next t) :
    t.Inv := by
  cases e with
  | step => cases he
  | press k => exact Host.Outcome.next.inj h ▸ hs.press k
  | cancel => exact Host.Outcome.next.inj h ▸ hs.cancel
  | drain => exact Host.Outcome.next.inj h ▸ hs.drain
  | load t0 rom => exact hs.reload h

/-- Settles O48: a step of the core keeps the invariant through its timer update and its instruction, every other event by itself. -/
theorem everyStepKeepsTheInvariant : Obligations.EveryStepKeepsTheInvariant := by
  intro s t hs h
  obtain ⟨u, hbegin, hexec⟩ | ⟨e, es, -, he, hdel⟩ | ⟨-, es, rfl⟩ := step_begins_or_delivers h
  · obtain ⟨hru, -, -⟩ := hbegin.same
    exact (hs.beginsStep hbegin).fetchExec hru hexec
  · exact (hs.setHost es).deliver he hdel
  · exact hs.setHost es

end Sys2Proof.Machine
end

section
/-! PROOF. Return, jumps, call and skips: O18 to O22 (41_control_flow.md R150 to R158). -/

namespace Sys2Proof.Machine

/-- Every instruction has the encoding of its own row (R102, R105). -/
theorem hasEncoding_row (i : Instr) : HasEncoding i i.row.pattern i.row.mask := ⟨row_admits_encode i, decodeWord_encode i⟩

/-! ### Jumps (R138, R151, R157) -/

@[simp] theorem addrWord_toNat (nnn : Addr12) : (addrWord nnn).toNat = nnn.toNat := by
  simp only [addrWord, BitVec.toNat_setWidth]
  omega

/-- A 12-bit address and a byte add without a carry out of the word (R157). -/
theorem addrWord_add_byte_toNat (nnn : Addr12) (b : Byte) :
    (addrWord nnn + b.setWidth 16).toNat = nnn.toNat + b.toNat := by
  rw [BitVec.toNat_add, addrWord_toNat, BitVec.toNat_setWidth]
  omega

/-- Settles O18: both are `jump`, to a target whose value no reduction changes. -/
theorem jumpsSetPc : Obligations.JumpsSetPc := fun nnn s =>
  ⟨hasEncoding_row (.jp nnn), hasEncoding_row (.jpV0 nnn),
    ⟨_, rfl, addrWord_toNat nnn, SameExcept.jump s _⟩,
    ⟨_, rfl, addrWord_add_byte_toNat nnn (s.getV 0), SameExcept.jump s _⟩⟩

/-! ### Skips (R137, R153 to R156) -/

theorem State.skipIf_pc_toNat (s : State) (c : Bool) :
    (s.skipIf c).pc.toNat = (s.pc.toNat + if c then 4 else 2) % 65536 := by
  cases c <;> exact BitVec.toNat_add _ _

/-- Settles O21: each is `skipIf`, the `SE` forms on equality and the `SNE` forms on its negation. -/
theorem registerSkipsTestAndAdvance : Obligations.RegisterSkipsTestAndAdvance := fun x y kk s =>
  ⟨hasEncoding_row (.seImm x kk), hasEncoding_row (.sneImm x kk), hasEncoding_row (.seReg x y), hasEncoding_row (.sneReg x y),
    ⟨_, rfl, by simp only [State.skipIf_pc_toNat, beq_iff_eq], SameExcept.skipIf s _⟩,
    ⟨_, rfl, by simp only [State.skipIf_pc_toNat, bne_iff_ne, ne_eq, ite_not], SameExcept.skipIf s _⟩,
    ⟨_, rfl, by simp only [State.skipIf_pc_toNat, beq_iff_eq], SameExcept.skipIf s _⟩,
    ⟨_, rfl, by simp only [State.skipIf_pc_toNat, bne_iff_ne, ne_eq, ite_not], SameExcept.skipIf s _⟩⟩

/-! ### Call and return (R43, R150, R152) -/

/-- A push or a pop with the jump after it writes the stack, SP and PC. -/
theorem SameExcept.setStackPc (s : State) (sp : Fin 17) (stack : Vector Word 16) (pc : Word) :
    SameExcept [.pc, .stack] s { s with sp := sp, stack := stack, pc := pc } := by
  intro p hp; cases p <;> simp [Part.same, State.getV, State.readByte] at hp ⊢

/-- Settles O19: the call is `pushJump` of its own address, with the entry at SP the only one written. -/
theorem callPushesItsOwnAddress : Obligations.CallPushesItsOwnAddress := by
  refine fun nnn s => ⟨hasEncoding_row (.call nnn), fun hroom => ?_, fun hfull => ?_⟩
  · refine ⟨_, congrArg Host.Outcome.next (State.pushJump_of_lt _ _ _ hroom), addrWord_toNat nnn, rfl, fun k => ?_,
      SameExcept.setStackPc s _ _ _⟩
    simp only [Fin.getElem_fin, Vector.getElem_set, eq_comm]
  · exact congrArg Host.Outcome.next (State.pushJump_of_full _ _ _ hfull)

/-- Settles O20: the return is `popJump`, which moves SP to the top entry and writes no entry. -/
theorem returnResumesAfterTheCallSite : Obligations.ReturnResumesAfterTheCallSite := by
  refine fun s => ⟨hasEncoding_row .ret, fun top hsp => ?_, fun hempty => ?_⟩
  · have htop : s.sp.val - 1 = top.val := by omega
    refine ⟨_, congrArg Host.Outcome.next (State.popJump_of_pos _ (by omega)), htop, ?_, rfl, SameExcept.setStackPc s _ _ _⟩
    simp only [htop, Fin.getElem_fin]
  · exact congrArg Host.Outcome.next (State.popJump_of_empty _ hempty)

/-! ### A call and the return at its target (R158) -/

/-- A frame that leaves memory alone finds at the new PC the word that stood there before. -/
theorem SameExcept.wordAtPc_moved {ps : List Part} {s t : State} (h : SameExcept ps s t) (hmem : .mem ∉ ps) :
    t.wordAtPc = State.wordAtPc { s with pc := t.pc } := by
  have hm (a : Nat) : t.readByte a = s.readByte a := h .mem hmem a
  simp only [State.wordAtPc, hm]
  rfl

section

variable {s : State} {inp : StepInput} {es : List HostEvent} (hr : s.status = .running) (hhost : s.host = .step inp :: es)
  (hwrap : s.cfg.memOob = .wrap)

include hr hhost hwrap

/-- A pending step of a running core under `MEM_OOB = wrap` is the instruction at PC, run after the timer update. -/
theorem step_eq_exec_of_wrap {i : Instr} (hword : s.wordAtPc = encode i) :
    ∃ u, step s = exec i u ∧ SameExcept [.dt, .st, .tickRef, .boundary] s u ∧ u.cfg = s.cfg ∧ u.host = es := by
  have hbegin : s.BeginsStep (State.latch { s with host := es } inp).timerUpdate := ⟨hr, .inl ⟨inp, es, hhost, rfl⟩⟩
  obtain ⟨hframe, hcfg, hstep⟩ :=
    stepRunsTheDecodedInstruction s _ i hbegin (.inl hwrap) (hword ▸ decodeWord_encode i)
  exact ⟨_, hstep, hframe, hcfg, rfl⟩

/-- The step of a call with room. -/
theorem step_call_of_wrap {nnn : Addr12} (hword : s.wordAtPc = encode (.call nnn)) {top : Fin 16} (hsp : s.sp.val = top.val) :
    ∃ t, step s = .next t ∧ t.pc = nnn.setWidth 16 ∧ t.sp.val = top.val + 1 ∧ t.stack[top] = s.pc ∧ t.cfg = s.cfg ∧
      t.host = es ∧ SameExcept [.pc, .stack, .dt, .st, .tickRef, .boundary] s t := by
  obtain ⟨u, hstep, hsu, hucfg, huhost⟩ := step_eq_exec_of_wrap hr hhost hwrap hword
  have hupc : u.pc = s.pc := hsu .pc (by simp)
  obtain ⟨husp, -⟩ : u.sp = s.sp ∧ u.stack = s.stack := hsu .stack (by simp)
  obtain ⟨-, hpush, -⟩ := callPushesItsOwnAddress nnn u
  obtain ⟨t, hexec, hpc, htsp, hstack, hut⟩ := hpush (by omega)
  obtain ⟨htcfg, -, hthost, -⟩ : Part.boundary.same u t := hut .boundary (by simp)
  refine ⟨t, hstep.trans hexec, BitVec.eq_of_toNat_eq (hpc.trans (addrWord_toNat nnn).symm), by omega, ?_,
    htcfg.trans hucfg, hthost.trans huhost, (hsu.mono (by simp)).trans (hut.mono (by simp))⟩
  rw [hstack, if_pos (by omega), hupc]

/-- The step of a return with an entry in use. -/
theorem step_ret_of_wrap (hword : s.wordAtPc = encode .ret) {top : Fin 16} (hsp : s.sp.val = top.val + 1) :
    ∃ t, step s = .next t ∧ t.pc = s.stack[top] + 2 ∧ t.sp.val = top.val ∧ t.host = es ∧
      SameExcept [.pc, .stack, .dt, .st, .tickRef, .boundary] s t := by
  obtain ⟨u, hstep, hsu, -, huhost⟩ := step_eq_exec_of_wrap hr hhost hwrap hword
  obtain ⟨husp, hustack⟩ : u.sp = s.sp ∧ u.stack = s.stack := hsu .stack (by simp)
  obtain ⟨-, hpop, -⟩ := returnResumesAfterTheCallSite u
  obtain ⟨t, hexec, htsp, hpc, -, hut⟩ := hpop top (by omega)
  obtain ⟨-, -, hthost, -⟩ : Part.boundary.same u t := hut .boundary (by simp)
  exact ⟨t, hstep.trans hexec, hustack ▸ hpc, htsp, hthost.trans huhost, (hsu.mono (by simp)).trans (hut.mono (by simp))⟩

end

theorem core_run_two {s t u : State} (hst : step s = .next t) (htu : step t = .next u) :
    Sys2Proof.core.run 2 s = .next u := by
  have hs : Sys2Proof.core.step s = .next t := hst
  have ht : Sys2Proof.core.step t = .next u := htu
  simp only [Host.Core.run, hs, ht]

/-- Settles O22: the call leaves its address at the old SP, and the return at `nnn` pops that entry. -/
theorem callThenReturnComesBack : Obligations.CallThenReturnComesBack := by
  intro s nnn a b es hr hhost hwrap hroom hcall hret
  obtain ⟨t, hst, htpc, htsp, htop, htcfg, hthost, hframe⟩ :=
    step_call_of_wrap hr hhost hwrap hcall (top := ⟨s.sp.val, hroom⟩) rfl
  have htword : t.wordAtPc = encode .ret := by
    rw [hframe.wordAtPc_moved (by simp), htpc, hret]
    rfl
  have htr : t.status = .running := (hframe .status (by simp)).trans hr
  obtain ⟨u, htu, hupc, husp, huhost, hframe'⟩ :=
    step_ret_of_wrap htr hthost (htcfg ▸ hwrap) htword htsp
  exact ⟨u, core_run_two hst htu, htop ▸ hupc, Fin.ext husp, huhost, hframe.trans hframe'⟩

end Sys2Proof.Machine
end

section
/-! PROOF. Registers and arithmetic: O23 to O28 (42_alu.md R170 to R182). -/

namespace Sys2Proof.Machine

/-! ### A register write and the advance after it (R136) -/

theorem State.setV_advance_getV_self (s : State) (x : Reg) (b : Byte) : (s.setV x b).advance.getV x = b := by
  rw [State.advance_getV, State.getV_setV, if_pos rfl]

/-- A write to Vx and the advance leave every other register, and every part but the registers and PC. -/
theorem State.setV_advance_frame (s : State) (x : Reg) (b : Byte) :
    (∀ r, r ≠ x → (s.setV x b).advance.getV r = s.getV r) ∧ (s.setV x b).advance.pc = s.pc + 2 ∧
      SameExcept [.v, .pc] s (s.setV x b).advance := by
  refine ⟨fun r hr => ?_, rfl, SameExcept.setV_advance s x b⟩
  rw [State.advance_getV, State.getV_setV, if_neg hr]

/-- Settles O23: each is one register write; the immediate add is the addition of bytes. -/
theorem loadsAndImmediateAdd : Obligations.LoadsAndImmediateAdd := by
  refine fun x y kk s => ⟨hasEncoding_row (.ldImm x kk), hasEncoding_row (.addImm x kk), hasEncoding_row (.ldReg x y),
    ⟨_, rfl, State.setV_advance_getV_self s x _, State.setV_advance_frame s x _⟩,
    ⟨_, rfl, ?sum, State.setV_advance_frame s x _⟩,
    ⟨_, rfl, State.setV_advance_getV_self s x _, State.setV_advance_frame s x _⟩⟩
  case sum => rw [State.setV_advance_getV_self, BitVec.toNat_add]

/-- Settles O24: each is one register write, of the bitwise operation on the two operands. -/
theorem bitwiseInstructionsLeaveTheFlag : Obligations.BitwiseInstructionsLeaveTheFlag := by
  refine fun x y s => ⟨hasEncoding_row (.orReg x y), hasEncoding_row (.andReg x y), hasEncoding_row (.xorReg x y),
    ⟨_, rfl, fun b => ?or, State.setV_advance_frame s x _⟩,
    ⟨_, rfl, fun b => ?and, State.setV_advance_frame s x _⟩,
    ⟨_, rfl, fun b => ?xor, State.setV_advance_frame s x _⟩⟩
  case or => rw [State.setV_advance_getV_self, BitVec.getLsbD_or]
  case and => rw [State.setV_advance_getV_self, BitVec.getLsbD_and]
  case xor => rw [State.setV_advance_getV_self, BitVec.getLsbD_xor]

/-- Settles O28: it is one register write, of the AND of `kk` and whatever byte the port holds. -/
theorem randomByteIsMasked : Obligations.RandomByteIsMasked := by
  refine fun x kk s => ⟨hasEncoding_row (.rnd x kk), _, rfl, fun b => ?_, State.setV_advance_frame s x _⟩
  rw [State.setV_advance_getV_self, BitVec.getLsbD_and]

/-! ### A flag, then the result, and the advance after it (R136, R170) -/

section

variable (s : State) (x : Reg) (f b : Byte)

/-- The result is written last, so it stays for x = F too. -/
theorem State.setFlagThenV_advance_getV_self : (s.setFlagThenV x f b).advance.getV x = b := by
  rw [State.advance_getV, State.getV_setFlagThenV, if_pos rfl]

theorem State.setFlagThenV_advance_getV_flag (hx : x ≠ 0xF) : (s.setFlagThenV x f b).advance.getV 0xF = f := by
  rw [State.advance_getV, State.getV_setFlagThenV, if_neg hx.symm, flagReg, if_pos rfl]

/-- A write to VF and then Vx and the advance leave every other register, and every part but the registers and PC. -/
theorem State.setFlagThenV_advance_frame :
    (∀ r, r ≠ x → r ≠ 0xF → (s.setFlagThenV x f b).advance.getV r = s.getV r) ∧
      (s.setFlagThenV x f b).advance.pc = s.pc + 2 ∧ SameExcept [.v, .pc] s (s.setFlagThenV x f b).advance := by
  refine ⟨fun r hr hflag => ?_, rfl, SameExcept.setFlagThenV_advance s x f b⟩
  rw [State.advance_getV, State.getV_setFlagThenV, if_neg hr, flagReg, if_neg hflag]

end

/-! ### Results and flags as numbers (R177 to R181) -/

theorem flagByte_decide (p : Prop) [Decidable p] : flagByte (decide p) = if p then 1 else 0 := by
  simp only [flagByte, decide_eq_true_eq]

theorem flagByte_toNat (c : Bool) : (flagByte c).toNat = c.toNat := by
  cases c <;> rfl

/-- Bit 0 of a byte is its remainder by 2 (R179). -/
theorem shrFlag_toNat (a : Byte) : (shrFlag a).toNat = a.toNat % 2 := by
  rw [shrFlag, flagByte_toNat, BitVec.getLsbD, Nat.toNat_testBit, Nat.pow_zero, Nat.div_one]

/-- Bit 7 of a byte is its quotient by 128 (R181). -/
theorem shlFlag_toNat (a : Byte) : (shlFlag a).toNat = a.toNat / 128 := by
  rw [shlFlag, flagByte_toNat, BitVec.getLsbD, Nat.toNat_testBit]
  omega

/-- The difference of bytes is the difference modulo 256 (R178, R180). -/
theorem byte_sub_toNat (a b : Byte) : ((a - b).toNat : ℤ) = ((a.toNat : ℤ) - b.toNat) % 256 := by
  rw [BitVec.toNat_sub]
  omega

theorem byte_shiftRight_one_toNat (a : Byte) : (a >>> 1).toNat = a.toNat / 2 := by
  rw [BitVec.toNat_ushiftRight, Nat.shiftRight_eq_div_pow, Nat.pow_one]

theorem byte_shiftLeft_one_toNat (a : Byte) : (a <<< 1).toNat = 2 * a.toNat % 256 := by
  rw [BitVec.toNat_shiftLeft, Nat.shiftLeft_eq, Nat.pow_one, Nat.mul_comm]

/-! ### The instructions with a flag -/

/-- Settles O25: the flag is the carry and the result the sum, both of the operands before the write. -/
theorem addRecordsTheCarry : Obligations.AddRecordsTheCarry := by
  refine fun x y s => ⟨hasEncoding_row (.addReg x y), _, rfl, ?sum, fun hx => ?carry, State.setFlagThenV_advance_frame s x _ _⟩
  case sum => rw [State.setFlagThenV_advance_getV_self, BitVec.toNat_add]
  case carry => rw [State.setFlagThenV_advance_getV_flag s x _ _ hx, addCarry, flagByte_decide]

/-- Settles O26: the flag is the strict comparison and the result the difference, for both orders of the operands. -/
theorem subtractRecordsStrictComparison : Obligations.SubtractRecordsStrictComparison := by
  refine fun x y s => ⟨hasEncoding_row (.subReg x y), hasEncoding_row (.subnReg x y),
    ⟨_, rfl, ?diff, fun hx => ?flag, State.setFlagThenV_advance_frame s x _ _⟩,
    ⟨_, rfl, ?diffN, fun hx => ?flagN, State.setFlagThenV_advance_frame s x _ _⟩⟩
  case diff | diffN => rw [State.setFlagThenV_advance_getV_self, byte_sub_toNat]
  case flag | flagN => rw [State.setFlagThenV_advance_getV_flag s x _ _ hx, subFlag, flagByte_decide]

/-- Settles O27: the flag is the bit shifted out and the result the shifted Vx; no operand but Vx is read. -/
theorem shiftsRecordTheBitShiftedOut : Obligations.ShiftsRecordTheBitShiftedOut := by
  refine fun x y s => ⟨hasEncoding_row (.shr x y), hasEncoding_row (.shl x y),
    ⟨_, rfl, ?half, fun hx => ?bit0, State.setFlagThenV_advance_frame s x _ _⟩,
    ⟨_, rfl, ?double, fun hx => ?bit7, State.setFlagThenV_advance_frame s x _ _⟩⟩
  case half => rw [State.setFlagThenV_advance_getV_self, byte_shiftRight_one_toNat]
  case bit0 => rw [State.setFlagThenV_advance_getV_flag s x _ _ hx, shrFlag_toNat]
  case double => rw [State.setFlagThenV_advance_getV_self, byte_shiftLeft_one_toNat]
  case bit7 => rw [State.setFlagThenV_advance_getV_flag s x _ _ hx, shlFlag_toNat]

end Sys2Proof.Machine
end

section
/-! PROOF. The index register and the memory instructions: O29 to O33 (43_index_memory.md R190 to R197). -/

namespace Sys2Proof.Machine

/-! ### Writes to I (R191 to R193) -/

theorem byte_setWidth_toNat (b : Byte) : (b.setWidth 16 : Word).toNat = b.toNat := by
  rw [BitVec.toNat_setWidth]
  omega

/-- A glyph's address needs no reduction modulo 2^16 (R193). -/
theorem glyphAddress_toNat (b : Byte) : ((b.setWidth 16 : Word) * 5).toNat = 5 * b.toNat := by
  have hfive : (5 : Word).toNat = 5 := rfl
  rw [BitVec.toNat_mul, byte_setWidth_toNat, hfive]
  omega

/-- Settles O29: each is one write to I and the advance; the add is the addition of words. -/
theorem indexRegisterWrites : Obligations.IndexRegisterWrites := by
  refine fun nnn x s => ⟨hasEncoding_row (.ldI nnn), hasEncoding_row (.addI x), hasEncoding_row (.ldF x),
    ⟨_, rfl, addrWord_toNat nnn, rfl, exec_sameExcept (i := .ldI nnn) rfl⟩,
    ⟨_, rfl, ?sum, rfl, exec_sameExcept (i := .addI x) rfl⟩,
    ⟨_, rfl, glyphAddress_toNat (s.getV x), rfl, exec_sameExcept (i := .ldF x) rfl⟩⟩
  case sum => rw [State.advance_i, BitVec.toNat_add, byte_setWidth_toNat]

/-! ### An instruction whose meaning is guarded by the range check (R72, R190) -/

section

variable {i : Instr} {s k : State} (h : exec i s = .next (s.withRange (encode i) (dataBytes i) k))

include h

theorem stopsOutOfRange_of_withRange : StopsOutOfRange i s := fun _ hout =>
  h.trans (congrArg Host.Outcome.next (State.withRange_of_some k (State.rangeFault_of_outOfRange hout)))

theorem exec_of_accessible (hacc : s.Accessible s.i.toNat (dataBytes i)) : exec i s = .next k :=
  h.trans (congrArg Host.Outcome.next (State.withRange_of_none k (State.rangeFault_of_accessible hacc)))

end

/-! ### The stores (R194, R195) -/

/-- Stores at I and the advance leave every other byte, and every part but memory and PC. -/
theorem State.storeBytes_advance_frame (s : State) {bs : List Byte} {n : Nat} (hn : bs.length = n) :
    (∀ a, (∀ k, k < n → mapAddr a ≠ mapAddr (s.base + k)) → (s.storeBytes s.base bs).advance.readByte a = s.readByte a) ∧
      (s.storeBytes s.base bs).advance.pc = s.pc + 2 ∧ SameExcept [.mem, .pc] s (s.storeBytes s.base bs).advance := by
  subst hn
  refine ⟨fun a ha => ?_, ?_, ((SameExcept.storeBytes s _ bs).mono (by simp)).then_advance (by simp)⟩
  · rw [State.advance_readByte, State.readByte_storeBytes_other _ _ _ _ ha]
  · rw [State.advance_pc, State.storeBytes_pc]

/-- The byte at I + k after the stores of `Fx33` is the k-th digit. -/
theorem State.readByte_store_decimalDigits (s : State) (v : Byte) {k : Nat} (hk : k < 3) :
    (s.storeBytes s.base (decimalDigits v)).advance.readByte (s.base + k) = (decimalDigits v)[k]'hk := by
  have hlen : (decimalDigits v).length ≤ memSize := by simp [decimalDigits, memSize]
  rw [State.advance_readByte, State.readByte_storeBytes _ _ _ _ hlen hk]

/-- Settles O30: the guarded meaning stores the digits at I, and each reads back as the quotient or remainder that it is. -/
theorem decimalDigitsAreStored : Obligations.DecimalDigitsAreStored := by
  intro x s
  have digit {k : Nat} (hk : k < 3) := congrArg BitVec.toNat (s.readByte_store_decimalDigits (s.getV x) hk)
  refine ⟨hasEncoding_row (.ldB x), stopsOutOfRange_of_withRange rfl, fun hacc =>
    ⟨_, exec_of_accessible rfl hacc, ?hundreds, ?tens, ?ones, s.storeBytes_advance_frame rfl⟩⟩
  case hundreds => exact (digit (k := 0) (by decide)).trans BitVec.toNat_udiv
  case tens =>
    exact (digit (k := 1) (by decide)).trans (BitVec.toNat_umod.trans (congrArg (· % 10) BitVec.toNat_udiv))
  case ones => exact (digit (k := 2) (by decide)).trans BitVec.toNat_umod

/-- Settles O31: the guarded meaning stores V0..Vx at I. -/
theorem registersAreStored : Obligations.RegistersAreStored := fun x s =>
  ⟨hasEncoding_row (.storeRegs x), stopsOutOfRange_of_withRange rfl, fun hacc =>
    ⟨_, exec_of_accessible rfl hacc, fun _ hk => s.readByte_store_regsThrough hk,
      s.storeBytes_advance_frame (s.length_regsThrough x)⟩⟩

/-! ### The load (R196), and a store with a load after it (R197) -/

/-- Settles O32: the guarded meaning loads V0..Vx from I. -/
theorem registersAreLoaded : Obligations.RegistersAreLoaded := fun x s =>
  ⟨hasEncoding_row (.loadRegs x), stopsOutOfRange_of_withRange rfl, fun hacc =>
    ⟨_, exec_of_accessible rfl hacc, fun k => s.getV_loadThrough x k, rfl,
      ((SameExcept.loadThrough s x).mono (by simp)).then_advance (by simp)⟩⟩

/-- Settles O33: the load reads at the same I, under the same parameters, the bytes that the store left there, and leaves them. -/
theorem storeThenLoadRestoresRegisters : Obligations.StoreThenLoadRestoresRegisters := by
  intro x s t u hacc hst hi hmem hcfg
  obtain ⟨-, -, hstore⟩ := registersAreStored x s
  obtain ⟨t', hst', hbytes, -, -, hframe⟩ := hstore hacc
  obtain rfl : t' = t := Host.Outcome.next.inj (hst'.symm.trans hst)
  obtain ⟨htcfg, -⟩ : Part.boundary.same s t' := hframe .boundary (by simp)
  have hui : u.i = s.i := hi.trans (hframe .i (by simp))
  have huacc : u.Accessible u.i.toNat (x.val + 1) := by
    rw [State.Accessible, hcfg, htcfg, hui]
    exact hacc
  obtain ⟨-, -, hload⟩ := registersAreLoaded x u
  obtain ⟨w, huw, hregs, -, hframe'⟩ := hload huacc
  refine ⟨w, huw, fun k hk => ?_⟩
  have hbyte : u.readByte (s.i.toNat + k.val) = s.getV k := (State.readByte_congr hmem hcfg _).trans (hbytes k hk)
  refine ⟨?_, (hframe' .mem (by simp) _).trans hbyte⟩
  rw [hregs, if_pos hk, hui, hbyte]

end Sys2Proof.Machine
end

section
/-! PROOF. The display: O34 to O38 (44_display.md R210 to R219). -/

namespace Sys2Proof.Machine

/-! ### No drain inside an instruction (R219) -/

theorem State.midDrain_eq_noDrain {s : State} (h : s.cfg.drainAtomicity = .instruction ∨ s.port.drains = []) :
    s.midDrain = noDrain := by
  obtain h | h := h
  · exact State.midDrain_instruction h
  · funext k
    cases hpolicy : s.cfg.drainAtomicity <;> simp [State.midDrain, noDrain, hpolicy, h]

/-! ### The clear (R212, R215) -/

@[simp] theorem Display.clearPixel_out (d : Display) (p : Col × Row) : (d.clearPixel p).out = d.out := by
  unfold Display.clearPixel; split <;> rfl

theorem Display.clearEach_noDrain_cons (k : Nat) (p : Col × Row) (ps : List (Col × Row)) (d : Display) :
    Display.clearEach noDrain k (p :: ps) d = Display.clearEach noDrain (k + 1) ps (d.clearPixel p) := by
  simp only [Display.clearEach, noDrain, Bool.false_and, Bool.false_eq_true, if_false]

theorem Display.clearEach_noDrain_out (k : Nat) (ps : List (Col × Row)) (d : Display) :
    (Display.clearEach noDrain k ps d).out = d.out := by
  induction ps generalizing d k with
  | nil => rfl
  | cons p ps ih => rw [Display.clearEach_noDrain_cons, ih, Display.clearPixel_out]

/-- With no drain inside, the visited pixels that were on become dirty and the others keep their dirty bit. -/
theorem Display.clearEach_noDrain_dirty (k : Nat) (ps : List (Col × Row)) (d : Display) (a : Col) (b : Row) :
    (Display.clearEach noDrain k ps d).dirty.at a b = true ↔
      d.dirty.at a b = true ∨ ((a, b) ∈ ps ∧ d.pix.at a b = true) := by
  induction ps generalizing d k with
  | nil => simp [Display.clearEach]
  | cons p ps ih =>
    rw [Display.clearEach_noDrain_cons, ih, Display.clearPixel_dirty, Display.clearPixel_pix, List.mem_cons, Prod.ext_iff]
    by_cases hp : a = p.1 ∧ b = p.2
    · cases hon : d.pix.at a b <;> simp [hp]
    · simp [hp, ← and_assoc]

/-- With no drain inside, a clear pixel by pixel in any order is the clear at once. -/
theorem State.clearDisplay_disp_of_noDrain {s : State} (h : s.midDrain = noDrain) :
    s.clearDisplay.disp = s.disp.clear := by
  cases hpolicy : s.cfg.drainAtomicity with
  | instruction => simp only [State.clearDisplay, hpolicy]
  | pixel =>
    have hdisp : s.clearDisplay.disp = Display.clearEach noDrain 0 (s.port.clearOrder ++ raster) s.disp := by
      simp only [State.clearDisplay, hpolicy, h]
    have hpix : s.clearDisplay.disp.pix = s.disp.clear.pix :=
      Grid.ext_at fun a b => (s.clearDisplay_pix a b).trans (s.disp.clear_pix a b).symm
    have hdirty : s.clearDisplay.disp.dirty = s.disp.clear.dirty := Grid.ext_at fun a b => by
      have hmem : (a, b) ∈ s.port.clearOrder ++ raster := List.mem_append_right _ (mem_raster _)
      rw [Bool.eq_iff_iff, hdisp, Display.clearEach_noDrain_dirty, Display.clear_dirty, Bool.or_eq_true]
      simp only [hmem, true_and]
    have hout : s.clearDisplay.disp.out = s.disp.clear.out := by rw [hdisp, Display.clearEach_noDrain_out, Display.clear_out]
    exact (Display.mk.injEq ..).mpr ⟨hpix, hdirty, hout⟩

/-- Settles O34: with no drain inside, whatever the order of the visits, the clear is the clear at once. -/
theorem clearTurnsEveryPixelOff : Obligations.ClearTurnsEveryPixelOff := by
  refine fun s => ⟨hasEncoding_row .cls, s.clearDisplay.advance, rfl, s.clearDisplay_pix, fun hnone => ?marks, rfl,
    ((SameExcept.clearDisplay s).mono (by simp)).then_advance (by simp)⟩
  case marks =>
    rw [State.advance_disp, State.clearDisplay_disp_of_noDrain (State.midDrain_eq_noDrain hnone)]
    exact ⟨s.disp.clear_dirty, s.disp.clear_out⟩

/-! ### The draw (R211, R216, R217) -/

/-- The calls of `Dxyn` put a 1-bit on exactly the pixels that its sprite covers. -/
theorem State.covered_drawCalls_iff (s : State) (x y : Reg) (n : Fin 16) (a : Col) (b : Row) :
    covered (s.drawCalls x y n) a b ↔ s.SpriteCovers x y n a b := by
  simp only [covered, State.drawCalls, mem_spriteCalls, SetCall.hits, State.SpriteCovers, Fin.ext_iff, wrapCol_val,
    wrapRow_val]
  constructor
  · rintro ⟨_, ⟨r, hr, j, hj, rfl⟩, ⟨ha, hb⟩, hbit⟩
    rw [State.getElem_readBytes] at hbit
    rw [State.length_readBytes] at hr
    exact ⟨r, j, hr, hj, hbit, ha, hb⟩
  · rintro ⟨r, j, hr, hj, hbit, ha, hb⟩
    refine ⟨_, ⟨r, by rwa [State.length_readBytes], j, hj, rfl⟩, ⟨ha, hb⟩, ?_⟩
    rwa [State.getElem_readBytes]

section
variable (s : State) (x y : Reg) (n : Fin 16)

/-- VF after `Dxyn` says whether a covered pixel was on, whatever drains fall inside. -/
theorem State.draw_flag :
    ((∃ a b, s.SpriteCovers x y n a b ∧ s.disp.pix.at a b = true) → (s.draw (s.drawCalls x y n)).getV 0xF = 1) ∧
      ((∀ a b, s.SpriteCovers x y n a b → s.disp.pix.at a b = false) → (s.draw (s.drawCalls x y n)).getV 0xF = 0) := by
  have hvf := (s.getV_draw (s.drawCalls x y n) 0xF).trans (if_pos rfl)
  have hflag := Display.run_flag s.midDrain 0 _ s.disp (s.drawCalls_pairwise x y n)
  simp only [State.covered_drawCalls_iff] at hflag
  refine ⟨fun hhit => ?hit, fun hmiss => ?miss⟩
  case hit =>
    rw [hvf, hflag.2 hhit]
    rfl
  case miss =>
    have hoff : (s.disp.run s.midDrain 0 (s.drawCalls x y n)).2 = false := Bool.eq_false_iff.2 fun h => by
      obtain ⟨a, b, hcov, hon⟩ := hflag.1 h
      simp [hmiss a b hcov] at hon
    rw [hvf, hoff]
    rfl

theorem State.draw_pix (a : Col) (b : Row) :
    (s.SpriteCovers x y n a b → (s.draw (s.drawCalls x y n)).disp.pix.at a b = !s.disp.pix.at a b) ∧
      (¬ s.SpriteCovers x y n a b → (s.draw (s.drawCalls x y n)).disp.pix.at a b = s.disp.pix.at a b) := by
  rw [← State.covered_drawCalls_iff]
  exact Display.run_pix _ _ _ _ (s.drawCalls_pairwise x y n) a b

theorem State.draw_dirty_iff {s : State} (h : s.midDrain = noDrain) (a : Col) (b : Row) :
    (s.draw (s.drawCalls x y n)).disp.dirty.at a b = true ↔ s.SpriteCovers x y n a b ∨ s.disp.dirty.at a b = true := by
  rw [State.draw_disp, h, Display.run_dirty, State.covered_drawCalls_iff]

end

/-- Settles O35: the calls of a sprite touch no pixel twice, so each acts on the pixel as it was before the draw. -/
theorem drawTogglesTheCoveredPixels : Obligations.DrawTogglesTheCoveredPixels := by
  intro x y n s
  refine ⟨hasEncoding_row (.drw x y n), stopsOutOfRange_of_withRange rfl, fun hacc =>
    ⟨(s.draw (s.drawCalls x y n)).advance, exec_of_accessible rfl hacc, fun a b => (s.draw_pix x y n a b).1,
      fun a b => (s.draw_pix x y n a b).2, (s.draw_flag x y n).1, (s.draw_flag x y n).2, fun hnone => ?marks,
      fun r hr => (s.getV_draw _ r).trans (if_neg hr), rfl, ((SameExcept.draw s _).mono (by simp)).then_advance (by simp)⟩⟩
  have hmid := State.midDrain_eq_noDrain hnone
  refine ⟨fun a b hcov => (State.draw_dirty_iff x y n hmid a b).2 (.inl hcov), fun a b hcov => ?kept, ?stream⟩
  case kept => rw [State.advance_disp, Bool.eq_iff_iff, State.draw_dirty_iff x y n hmid, or_iff_right hcov]
  case stream => rw [State.advance_disp, State.draw_disp, hmid, Display.run_noDrain_out]

/-! ### Drawing twice (R218) -/

/-- What a sprite covers follows from I, memory, the parameters and the two coordinates. -/
theorem State.spriteCovers_congr {s u : State} {x y : Reg} (hi : u.i = s.i) (hmem : u.mem = s.mem) (hcfg : u.cfg = s.cfg)
    (hx : u.getV x = s.getV x) (hy : u.getV y = s.getV y) (n : Fin 16) (a : Col) (b : Row) :
    u.SpriteCovers x y n a b ↔ s.SpriteCovers x y n a b := by
  simp only [State.SpriteCovers, hi, hx, hy, State.readByte_congr hmem hcfg]

/-- Settles O36: both draws toggle the same pixels, so a covered pixel is on before the second iff it was off before the first. -/
theorem drawingTwiceRestoresThePixels : Obligations.DrawingTwiceRestoresThePixels := by
  intro x y n s t u hacc hst hpix hi hmem hcfg hx hy
  have hcov := State.spriteCovers_congr hi hmem hcfg hx hy n
  obtain ⟨-, -, hfirst⟩ := drawTogglesTheCoveredPixels x y n s
  obtain ⟨t', hst', hon, hoff, -⟩ := hfirst hacc
  obtain rfl : t' = t := Host.Outcome.next.inj (hst'.symm.trans hst)
  have huacc : u.Accessible u.i.toNat n.val := by
    rw [State.Accessible, hcfg, hi]
    exact hacc
  obtain ⟨-, -, hsecond⟩ := drawTogglesTheCoveredPixels x y n u
  obtain ⟨w, huw, hon', hoff', hone, hzero, hmarks, -⟩ := hsecond huacc
  simp only [hcov, hpix] at hon' hoff' hone hzero hmarks
  refine ⟨w, huw, fun a b => ?pixels, ⟨fun hvf => ?wasOff, fun ⟨a, b, hc, hs⟩ => ?collides⟩, fun hnone => ?marks⟩
  case pixels =>
    by_cases hc : s.SpriteCovers x y n a b
    · rw [hon' a b hc, hon a b hc, Bool.not_not]
    · rw [hoff' a b hc, hoff a b hc]
  case wasOff =>
    by_contra hnot
    have hvf0 : w.getV 0xF = 0 := hzero fun a b hc => by
      rw [hon a b hc]
      by_contra hs
      exact hnot ⟨a, b, hc, by simpa using hs⟩
    exact absurd (hvf0.symm.trans hvf) (by decide)
  case collides => exact hone ⟨a, b, hc, by rw [hon a b hc, hs]; rfl⟩
  case marks =>
    rw [← hcfg] at hnone
    exact (hmarks hnone).1

/-! ### The drain (R214, R264) -/

theorem raster_nodup : raster.Nodup := by
  refine List.nodup_flatMap.2 ⟨fun y _ => ?row, ?apart⟩
  case row => exact (List.nodup_finRange 64).map fun a b h => congrArg Prod.fst h
  case apart =>
    refine (List.nodup_finRange 32).imp fun {y z} hne p hy hz => ?_
    simp only [List.mem_map] at hy hz
    obtain ⟨a, -, rfl⟩ := hy
    obtain ⟨b, -, hz⟩ := hz
    exact hne (congrArg Prod.snd hz).symm

/-- A drain hands over no pixel twice. -/
theorem Display.updates_nodup (d : Display) : d.updates.Nodup :=
  (raster_nodup.filter _).map fun p q h => by
    obtain ⟨hx, hy, -⟩ := PixelUpdate.mk.inj h
    exact Prod.ext hx hy

/-- After a drain there is nothing to hand over. -/
@[simp] theorem Display.updates_drain (d : Display) : d.drain.updates = [] :=
  List.eq_nil_iff_forall_not_mem.2 fun u hu => by simp [Display.mem_updates] at hu

/-- Settles O37: the event is popped and the display drained, whatever the run state. -/
theorem drainHandsOverTheDirtyPixels : Obligations.DrainHandsOverTheDirtyPixels := by
  intro s es hhost
  have hframe : SameExcept [.disp, .boundary] s (State.drain { s with host := es }) :=
    ((SameExcept.setHost s es).mono (by simp)).trans ((SameExcept.drain _).mono (by simp))
  refine ⟨State.drain { s with host := es }, s.disp.updates, step_of_cons hhost, rfl, s.disp.updates_nodup,
    s.disp.mem_updates, rfl, fun a b => Grid.at_blank a b, ?_, rfl, rfl, rfl, rfl, hframe⟩
  exact congrArg (· :: s.disp.drain.out) s.disp.updates_drain

/-! ### No pixel change is lost (R213, R219) -/

/-- Some list of the stream holds the pixel with the value. -/
def HandedOver (stream : List (List PixelUpdate)) (a : Col) (b : Row) (v : Bool) : Prop :=
  ∃ us ∈ stream, ∃ u ∈ us, u.x = a ∧ u.y = b ∧ u.on = v

/-- From `d` to `e` the stream only grows at its head, and a pixel that was dirty or has changed is dirty or stands, with its value in
`e`, in the part that is new. -/
def Display.LosesNothingTo (d e : Display) : Prop :=
  ∃ new, e.out = new ++ d.out ∧ ∀ a b, (d.dirty.at a b = true ∨ d.pix.at a b ≠ e.pix.at a b) →
    e.dirty.at a b = true ∨ HandedOver new a b (e.pix.at a b)

/-- An update that hands nothing over loses nothing where it marks what it changes. -/
theorem Display.LosesNothingTo.of_marks {d e : Display} (hout : e.out = d.out)
    (hmarks : ∀ a b, (d.dirty.at a b = true ∨ d.pix.at a b ≠ e.pix.at a b) → e.dirty.at a b = true) :
    d.LosesNothingTo e :=
  ⟨[], hout, fun a b h => .inl (hmarks a b h)⟩

theorem Display.LosesNothingTo.refl (d : Display) : d.LosesNothingTo d := .of_marks rfl fun _ _ h => h.resolve_right (· rfl)

/-- A pixel handed over on the way from `d` to `e` is reported again if it changes on the way from `e` to `f`. -/
theorem Display.LosesNothingTo.trans {d e f : Display} (hde : d.LosesNothingTo e) (hef : e.LosesNothingTo f) :
    d.LosesNothingTo f := by
  obtain ⟨new, hout, hnew⟩ := hde
  obtain ⟨new', hout', hnew'⟩ := hef
  refine ⟨new' ++ new, by rw [hout', hout, List.append_assoc], fun a b hdf => ?_⟩
  have later (h : e.dirty.at a b = true ∨ e.pix.at a b ≠ f.pix.at a b) :
      f.dirty.at a b = true ∨ HandedOver (new' ++ new) a b (f.pix.at a b) :=
    (hnew' a b h).imp_right fun ⟨us, hus, h⟩ => ⟨us, List.mem_append_left _ hus, h⟩
  by_cases hpix : e.pix.at a b = f.pix.at a b
  · rw [← hpix] at hdf
    obtain hdirty | ⟨us, hus, h⟩ := hnew a b hdf
    · exact later (.inl hdirty)
    · exact .inr ⟨us, List.mem_append_right _ hus, hpix ▸ h⟩
  · exact later (.inr hpix)

theorem Display.losesNothingTo_set (d : Display) (x y : Nat) (bit : Bool) : d.LosesNothingTo (d.set x y bit).1 := by
  refine .of_marks rfl fun a b h => ?_
  rw [Display.set_pix] at h
  rw [Display.set_dirty]
  by_cases hit : a = wrapCol x ∧ b = wrapRow y
  · obtain ⟨rfl, rfl⟩ := hit
    cases bit with
    | false => simpa using h
    | true => simp
  · rw [if_neg hit] at h
    simp [h.resolve_right (· rfl)]

theorem Display.losesNothingTo_clear (d : Display) : d.LosesNothingTo d.clear :=
  .of_marks rfl fun a b h => by simpa using h

theorem Display.losesNothingTo_clearPixel (d : Display) (p : Col × Row) : d.LosesNothingTo (d.clearPixel p) := by
  refine .of_marks (d.clearPixel_out p) fun a b h => ?_
  rw [Display.clearPixel_pix] at h
  rw [Display.clearPixel_dirty]
  by_cases hit : a = p.1 ∧ b = p.2
  · obtain ⟨rfl, rfl⟩ := hit
    cases hon : d.pix.at p.1 p.2 with
    | false => simpa [hon] using h
    | true => simp
  · rw [if_neg hit] at h
    simp [h.resolve_right (· rfl)]

theorem Display.losesNothingTo_drain (d : Display) : d.LosesNothingTo d.drain :=
  ⟨[d.updates], rfl, fun a b h => .inr ⟨d.updates, List.mem_singleton_self _, ⟨a, b, d.pix.at a b⟩,
    (d.mem_updates _).2 ⟨h.resolve_right (· rfl), rfl⟩, rfl, rfl, rfl⟩⟩

/-- A drain may follow. -/
theorem Display.LosesNothingTo.ite_drain {d e : Display} (h : d.LosesNothingTo e) (c : Bool) :
    d.LosesNothingTo (if c then e.drain else e) := by
  cases c
  · exact h
  · exact h.trans e.losesNothingTo_drain

theorem Display.losesNothingTo_run (mid : Nat → Bool) (k : Nat) (cs : List SetCall) (d : Display) :
    d.LosesNothingTo (Display.run mid k cs d).1 := by
  induction cs generalizing d k with
  | nil => exact .refl d
  | cons c cs ih => exact ((d.losesNothingTo_set c.x c.y c.bit).ite_drain _).trans (ih _ _)

theorem Display.losesNothingTo_clearEach (mid : Nat → Bool) (k : Nat) (ps : List (Col × Row)) (d : Display) :
    d.LosesNothingTo (Display.clearEach mid k ps d) := by
  induction ps generalizing d k with
  | nil => exact .refl d
  | cons p ps ih => exact ((d.losesNothingTo_clearPixel p).ite_drain _).trans (ih _ _)

theorem State.losesNothingTo_clearDisplay (s : State) : s.disp.LosesNothingTo s.clearDisplay.disp := by
  cases hpolicy : s.cfg.drainAtomicity with
  | instruction => simpa only [State.clearDisplay, hpolicy] using s.disp.losesNothingTo_clear
  | pixel => simpa only [State.clearDisplay, hpolicy] using s.disp.losesNothingTo_clearEach _ _ _

/-- Only `00E0` and `Dxyn` write the display. -/
theorem disp_not_mem_writtenParts {i : Instr} (hcls : i ≠ .cls) (hdrw : ∀ x y n, i ≠ .drw x y n) :
    .disp ∉ writtenParts i := by
  cases i <;> simp [writtenParts] at hcls hdrw ⊢

/-- Settles O38: every `set`, every visit of a clear and every drain loses nothing, so no sequence of them does. -/
theorem noPixelChangeIsLost : Obligations.NoPixelChangeIsLost := by
  suffices h : ∀ {i : Instr} {s t : State}, exec i s = .next t → s.disp.LosesNothingTo t.disp from fun _ _ _ => h
  intro i s t h
  by_cases hcls : i = .cls
  · subst hcls
    obtain rfl := Host.Outcome.next.inj h
    exact s.losesNothingTo_clearDisplay
  by_cases hdrw : ∃ x y n, i = .drw x y n
  · obtain ⟨x, y, n, rfl⟩ := hdrw
    obtain rfl := Host.Outcome.next.inj h
    obtain ⟨-, hrun⟩ | ⟨a, -, hraise⟩ :=
      s.withRange_cases (encode (.drw x y n)) n.val (s.draw (s.drawCalls x y n)).advance
    · rw [hrun]
      exact s.disp.losesNothingTo_run _ _ _
    · rw [hraise]
      exact .refl s.disp
  · have hsame : t.disp = s.disp := exec_sameExcept h _ (disp_not_mem_writtenParts hcls (by simpa using hdrw))
    rw [hsame]
    exact .refl s.disp

end Sys2Proof.Machine
end

section
/-! PROOF. Keys and timers: O40 to O44 (45_keys_timers.md R231 to R239; 60_exceptions.md R264, R265). -/

namespace Sys2Proof.Machine

/-! ### The key that an index names (R231 to R233) -/

theorem State.keyPressed_of_key {s : State} {b : Byte} {k : Key} (h : b.toNat = k.val) :
    s.keyPressed b = some s.port.keys[k] := by
  rw [State.keyPressed_of_lt (h ▸ k.isLt)]
  simp only [h, Fin.getElem_fin]

theorem State.keyPressed_of_notPressed {s : State} {b : Byte} (hindex : 16 ≤ b.toNat) (hoor : s.cfg.keyOor = .notPressed) :
    s.keyPressed b = some false := by
  rw [State.keyPressed, dif_neg (Nat.not_lt.2 hindex), hoor]

theorem State.keyPressed_of_lowNibble {s : State} {b : Byte} {k : Key} (hindex : 16 ≤ b.toNat)
    (hoor : s.cfg.keyOor = .lowNibble) (h : b.toNat % 16 = k.val) : s.keyPressed b = some s.port.keys[k] := by
  rw [State.keyPressed, dif_neg (Nat.not_lt.2 hindex), hoor]
  simp only [h, Fin.getElem_fin]

/-! ### The key skips (R231, R232) -/

section

variable {s : State} {x : Reg}

theorem exec_skp_of_some {p : Bool} (h : s.keyPressed (s.getV x) = some p) : exec (.skp x) s = .next (s.skipIf p) := by
  rw [exec, execSkp, h]

theorem exec_sknp_of_some {p : Bool} (h : s.keyPressed (s.getV x) = some p) : exec (.sknp x) s = .next (s.skipIf !p) := by
  rw [exec, execSknp, h]

theorem exec_skp_of_none (h : s.keyPressed (s.getV x) = none) :
    exec (.skp x) s = .next (s.raise (.ubStop s.pc (some (encode (.skp x))) (.keyIndex (s.getV x)))) := by
  rw [exec, execSkp, h]

theorem exec_sknp_of_none (h : s.keyPressed (s.getV x) = none) :
    exec (.sknp x) s = .next (s.raise (.ubStop s.pc (some (encode (.sknp x))) (.keyIndex (s.getV x)))) := by
  rw [exec, execSknp, h]

end

/-- Settles O40: both skips follow what `keyPressed` answers for Vx, and raise where it answers nothing. -/
theorem keySkipsFollowTheKeys : Obligations.KeySkipsFollowTheKeys := by
  refine fun x s => ⟨hasEncoding_row (.skp x), hasEncoding_row (.sknp x), fun pressed hkey => ?_, fun hindex hstop => ?_⟩
  · have hanswer : s.keyPressed (s.getV x) = some pressed := by
      obtain ⟨k, hk, rfl⟩ | ⟨hindex, hoor, rfl⟩ | ⟨hindex, hoor, k, hk, rfl⟩ := hkey
      · exact State.keyPressed_of_key hk
      · exact State.keyPressed_of_notPressed hindex hoor
      · exact State.keyPressed_of_lowNibble hindex hoor hk
    exact ⟨⟨_, exec_skp_of_some hanswer, by cases pressed <;> rfl, SameExcept.skipIf s _⟩,
      ⟨_, exec_sknp_of_some hanswer, by cases pressed <;> rfl, SameExcept.skipIf s _⟩⟩
  · have hnone : s.keyPressed (s.getV x) = none := (State.keyPressed_eq_none ..).2 ⟨hindex, hstop⟩
    exact ⟨exec_skp_of_none hnone, exec_sknp_of_none hnone⟩

/-! ### The timer moves and the beginning of a wait (R234, R235, R238, R239) -/

/-- Settles O41: one register write, or one timer write, and the advance; the frame is the instruction's own. -/
theorem timerRegisterMoves : Obligations.TimerRegisterMoves := fun x s =>
  ⟨hasEncoding_row (.ldVxDt x), hasEncoding_row (.ldDtVx x), hasEncoding_row (.ldStVx x),
    ⟨_, rfl, State.setV_advance_getV_self s x _, State.setV_advance_frame s x _⟩,
    ⟨_, rfl, rfl, rfl, exec_sameExcept (i := .ldDtVx x) rfl⟩,
    ⟨_, rfl, rfl, rfl, exec_sameExcept (i := .ldStVx x) rfl⟩⟩

/-- Settles O42: the wait is one write to the run state. -/
theorem keyWaitBegins : Obligations.KeyWaitBegins := fun x _ =>
  ⟨hasEncoding_row (.ldVxK x), _, rfl, rfl, exec_sameExcept (i := .ldVxK x) rfl⟩

/-! ### A press and a cancellation (R236, R237, R264, R265) -/

theorem keyByte_toNat (k : Key) : (BitVec.ofNat 8 k.val).toNat = k.val := by
  rw [BitVec.toNat_ofNat]
  omega

/-- Settles O43: the event is popped; in a wait the press is a write to Vx, the advance and `Running`, elsewhere it is nothing. -/
theorem keyPressCompletesTheWait : Obligations.KeyPressCompletesTheWait := by
  intro s k es hhost
  have hstep : step s = .next (State.press { s with host := es } k) := step_of_cons hhost
  refine ⟨fun x hwait => ?_, fun hnot => ?_⟩
  · have hpress := State.press_waitKey (s := { s with host := es }) k hwait
    have hframe : SameExcept [.v, .pc, .status, .boundary] s (State.press { s with host := es } k) :=
      ((SameExcept.setHost s es).mono (by simp)).trans ((SameExcept.press _ k).mono (by simp))
    obtain ⟨hothers, hpc, -⟩ := State.setV_advance_frame { s with host := es } x (BitVec.ofNat 8 k.val)
    rw [hpress] at hstep hframe
    refine ⟨_, hstep, ?_, hothers, hpc, rfl, rfl, rfl, hframe⟩
    exact (congrArg BitVec.toNat (State.setV_advance_getV_self { s with host := es } x _)).trans (keyByte_toNat k)
  · exact hstep.trans (congrArg Host.Outcome.next (State.press_of_not_waiting k hnot))

/-- Settles O44: the event is popped; a live core becomes `Stopped`, an ended one stays. -/
theorem cancelOnlyStops : Obligations.CancelOnlyStops := by
  intro s es hhost
  have hstep : step s = .next (State.cancel { s with host := es }) := step_of_cons hhost
  exact ⟨fun hlive => hstep.trans (congrArg Host.Outcome.next (State.cancel_of_live hlive)),
    fun hended => hstep.trans (congrArg Host.Outcome.next (State.cancel_of_ended hended))⟩

end Sys2Proof.Machine
end

section
/-! PROOF. What raises and what faults: the stack faults, the load error, the ways an instruction ends a run, and the table of error
codes; O14, O15, O54 and O57 (60_exceptions.md R250 to R255, R258, R268). -/

namespace Sys2Proof.Machine

/-! ### The load error (R255, R258) -/

/-- Settles O15: the run state and the length of the ROM decide a load, as O56 says, and no other event can fault. -/
theorem onlyAnOversizedLoadFaults : Obligations.OnlyAnOversizedLoadFaults := by
  intro s
  cases hhost : s.host with
  | nil =>
    by_cases hr : s.status = .running
    · rw [step_of_nil_running hhost hr]
      exact .inl (State.runStep_answers _ _)
    · exact .inl ⟨s, step_of_nil_not_running hhost hr⟩
  | cons e es =>
    cases e with
    | step inp =>
      rw [step_of_cons hhost]
      exact .inl (State.runStep_answers _ inp)
    | press | cancel | drain => exact .inl ⟨_, step_of_cons hhost⟩
    | load t0 rom =>
      obtain ⟨hfits, hoversized, hkeeps⟩ := loadEventReplacesAnEndedCore s t0 rom es hhost
      obtain hlive | hended := s.status.live_or_ended
      · exact .inl ⟨_, hkeeps hlive⟩
      · obtain hlen | hlen := Nat.lt_or_ge 3584 rom.length
        · have hnotRunning : s.status ≠ .running := fun hr => by simp [hr] at hended
          have hnotWaiting (x : Reg) : s.status ≠ .waitKey x := fun hw => by simp [hw] at hended
          exact .inr ⟨t0, rom, es, rfl, hlen, hnotRunning, hnotWaiting, hoversized hended hlen, rfl⟩
        · obtain ⟨t, ht, -⟩ := hfits hended hlen
          exact .inl ⟨t, ht⟩

/-! ### What an instruction raises (R251, R254) -/

/-- Codes 2 and 3 are those of a full stack at a call and of an empty one at a return. -/
theorem Raises.stack_cause {s : State} {i : Instr} {e : Error} (h : Raises s i e) (hcode : e.code = 2 ∨ e.code = 3) :
    ((∃ nnn, i = .call nnn) ∧ s.sp.val = 16 ∧ e = .stackFault s.pc (encode i) .overflow) ∨
      (i = .ret ∧ s.sp.val = 0 ∧ e = .stackFault s.pc (encode i) .underflow) := by
  cases h with
  | overflow nnn hfull => exact .inl ⟨⟨nnn, rfl⟩, hfull, rfl⟩
  | underflow hempty => exact .inr ⟨rfl, hempty, rfl⟩
  | range | skp | sknp => simp [Error.code] at hcode

theorem Error.code_stackFault (pc op : Word) (kind : StackFaultKind) :
    (Error.stackFault pc op kind).code = 2 ∨ (Error.stackFault pc op kind).code = 3 := by
  cases kind <;> simp [Error.code]

/-- A core that an instruction newly leaves halted holds an error that the instruction raised. -/
theorem raises_of_exec_halted {i : Instr} {s t : State} {e : Error} (hlive : s.NotHalted) (h : exec i s = .next t)
    (hhalt : t.status = .halted e) : Raises s i e := by
  obtain ⟨x, -, rfl⟩ | hkeep | ⟨e', hraises, rfl⟩ := exec_cases h
  · cases hhalt
  · exact absurd (hkeep.symm.trans hhalt) (hlive e)
  · exact Status.halted.inj hhalt ▸ hraises

/-- Settles O14: the two stack operations raise where they have no room and no entry, and no other error is a stack fault. -/
theorem stackFaultsAreExplicit : Obligations.StackFaultsAreExplicit := by
  refine ⟨fun s nnn hfull => ?_, fun s hempty => ?_, fun i s t pc op kind hlive h hhalt => ?_⟩
  · exact congrArg Host.Outcome.next (State.pushJump_of_full _ _ _ hfull)
  · exact congrArg Host.Outcome.next (State.popJump_of_empty _ hempty)
  · have hraises := raises_of_exec_halted hlive h hhalt
    obtain ⟨hcall, hfull, he⟩ | ⟨hret, hempty, he⟩ := hraises.stack_cause (Error.code_stackFault pc op kind)
    · exact .inl ⟨hcall, hfull, (Error.stackFault.inj he).2.2⟩
    · exact .inr ⟨hret, hempty, (Error.stackFault.inj he).2.2⟩

/-- Settles O54: `exec_cases` says how an instruction ends, and under the defaults its error is a stack fault. -/
theorem onlyKeyWaitAndErrorsLeaveRunning : Obligations.OnlyKeyWaitAndErrorsLeaveRunning := by
  intro i s t hr h
  obtain ⟨x, hi, rfl⟩ | hkeep | ⟨e, hraises, rfl⟩ := exec_cases h
  · exact .inr (.inl ⟨x, hi, rfl⟩)
  · exact .inl (hkeep.trans hr)
  · refine .inr (.inr ⟨e, rfl, fun hmem hkeys => ?_⟩)
    obtain ⟨⟨nnn, hcall⟩, hfull, -⟩ | ⟨hret, hempty, -⟩ := hraises.stack_cause (hraises.code_of_defaults hmem hkeys)
    · exact .inl ⟨nnn, hcall, hfull⟩
    · exact .inr ⟨hret, hempty⟩

/-! ### The table of error codes (R252) -/

theorem Part.same_symm {p : Part} {s t : State} (h : p.same s t) : p.same t s := by
  cases p with
  | v => exact fun r => (h r).symm
  | mem => exact fun a => (h a).symm
  | stack =>
    obtain ⟨hsp, hstack⟩ := h
    exact ⟨hsp.symm, hstack.symm⟩
  | boundary =>
    obtain ⟨hcfg, hport, hhost, hdraws⟩ := h
    exact ⟨hcfg.symm, hport.symm, hhost.symm, hdraws.symm⟩
  | i | pc | dt | st | disp | tickRef | status => exact h.symm

theorem SameExcept.symm {ps : List Part} {s t : State} (h : SameExcept ps s t) : SameExcept ps t s :=
  fun p hp => Part.same_symm (h p hp)

/-- The record of an error is true of the state before the step too: a raising step writes nothing that a record speaks of. -/
theorem State.BeginsStep.trueOf_of_halted {s u t : State} {e : Error} (hbegin : s.BeginsStep u) (h : step s = .next t)
    (hhalt : t.status = .halted e) : e.TrueOf s := by
  obtain ⟨rfl, htrue⟩ := raisingStepChangesNothingElse s u t e hbegin h hhalt
  obtain ⟨-, -, hcfg⟩ := hbegin.same
  have hframe : SameExcept [.dt, .st, .disp, .tickRef, .status, .boundary] s (u.StopsWith e) :=
    (hbegin.sameExcept.mono (by simp)).trans ((SameExcept.raise u e).mono (by simp))
  exact htrue.congr hframe.symm hcfg.symm

/-- Settles O57: the error's shape gives its code, and its record, true of the state before the step, gives the rest of its row. -/
theorem errorCodesFollowTheTable : Obligations.ErrorCodesFollowTheTable := by
  intro s u t e hbegin h hhalt
  match e, hbegin.trueOf_of_halted h hhalt with
  | .decodeError .., ⟨rfl, rfl, hdecode, _⟩ => exact .inl ⟨rfl, rfl, hdecode⟩
  | .stackFault _ _ .overflow, ⟨rfl, rfl, hfull, hcall⟩ => exact .inr (.inl ⟨rfl, rfl, hfull, hcall⟩)
  | .stackFault _ _ .underflow, ⟨rfl, rfl, hempty, hret⟩ => exact .inr (.inr (.inl ⟨rfl, rfl, hempty, hret⟩))
  | .ubStop _ none (.memoryRange a), ⟨rfl, hrange⟩ => exact .inr (.inr (.inr (.inl ⟨rfl, a, rfl, hrange⟩)))
  | .ubStop _ (some _) (.memoryRange a), ⟨rfl, rfl, i, hdecode, hrange⟩ =>
    exact .inr (.inr (.inr (.inr (.inl ⟨rfl, a, i, rfl, hdecode, hrange⟩))))
  | .ubStop _ (some _) (.keyIndex _), ⟨rfl, rfl, hstop, hindex, x, hskip, hkey⟩ =>
    subst hkey
    exact .inr (.inr (.inr (.inr (.inr ⟨rfl, x, rfl, hstop, hindex, hskip⟩))))

end Sys2Proof.Machine
end

section
/-! PROOF. Loads and restarts, and drains inside an instruction: O39, O46 and O49 (70_reset_and_hazards.md R280 to R284, R289;
44_display.md R219). -/

namespace Sys2Proof.Machine

/-! ### Loads and restarts (R280, R282, R284) -/

/-- Settles O46: such a ROM is longer than `ROM_MAX`. -/
theorem oversizedRomIsRefused : Obligations.OversizedRomIsRefused := fun cfg t0 _ hlen => ⟨loadRom_of_gt cfg t0 hlen, rfl⟩

/-- A load of an ended core reads the parameters, the pending events and the draw count, and nothing else. -/
theorem State.reload_congr_of_ended {s t : State} (hs : s.status = .stopped ∨ ∃ e, s.status = .halted e)
    (ht : t.status = .stopped ∨ ∃ e, t.status = .halted e) (hcfg : s.cfg = t.cfg) (hhost : s.host = t.host)
    (hdraws : s.draws = t.draws) (t0 : Nat) (rom : List Byte) : s.reload t0 rom = t.reload t0 rom := by
  rw [State.reload_of_ended t0 rom hs, State.reload_of_ended t0 rom ht, hcfg, hhost, hdraws]

/-- Settles O49: the load event is popped on both sides, and the two reloads read the same. -/
theorem restartForgetsTheOldCore : Obligations.RestartForgetsTheOldCore := by
  intro s t t0 rom es hs ht hcfg hdraws hhost hhost'
  rw [step_of_cons hhost, step_of_cons hhost']
  exact State.reload_congr_of_ended (s := { s with host := es }) (t := { t with host := es }) hs ht hcfg rfl hdraws t0 rom

/-! ### The drain policy (R219)

Only the display is written differently under another policy: every other operation commutes with the change of policy, and of the
display the pixels stay the same. -/

/-- The state with `DRAIN_ATOMICITY = p`. -/
def State.underPolicy (s : State) (p : DrainAtomicity) : State := { s with cfg := { s.cfg with drainAtomicity := p } }

section
variable (s : State) (p : DrainAtomicity)

theorem SameExcept.underPolicy : SameExcept [.boundary] s (s.underPolicy p) := by
  intro q hq; cases q <;> simp [Part.same, State.getV, State.readByte, State.underPolicy] at hq ⊢

theorem State.withRange_underPolicy (op : Word) (len : Nat) (k : State) :
    (s.underPolicy p).withRange op len (k.underPolicy p) = (s.withRange op len k).underPolicy p := by
  obtain ⟨hin, hrun⟩ | ⟨a, hout, hraise⟩ := s.withRange_cases op len k
  · rw [hrun, State.withRange_of_none (s := s.underPolicy p) _ hin]
  · rw [hraise, State.withRange_of_some (s := s.underPolicy p) _ hout]
    rfl

theorem State.storeBytes_underPolicy (a : Nat) (bs : List Byte) :
    (s.underPolicy p).storeBytes a bs = (s.storeBytes a bs).underPolicy p := by
  induction bs generalizing s a with
  | nil => rfl
  | cons b bs ih => exact ih (s.writeByte a b) (a + 1)

theorem State.storeThenAdvance_underPolicy (op : Word) (len : Nat) (bs : List Byte) :
    (s.underPolicy p).withRange op len ((s.underPolicy p).storeBytes s.base bs).advance =
      (s.withRange op len (s.storeBytes s.base bs).advance).underPolicy p := by
  rw [State.storeBytes_underPolicy]
  exact s.withRange_underPolicy p op len (s.storeBytes s.base bs).advance

theorem State.readBytes_underPolicy (a n : Nat) : (s.underPolicy p).readBytes a n = s.readBytes a n := by
  induction n generalizing a with
  | zero => rfl
  | succ n ih => exact congrArg (s.readByte a :: ·) (ih (a + 1))

theorem State.drawCalls_underPolicy (x y : Reg) (n : Fin 16) : (s.underPolicy p).drawCalls x y n = s.drawCalls x y n :=
  congrArg (spriteCalls _ _) (s.readBytes_underPolicy p s.base n.val)

theorem State.pushJump_underPolicy (op v target : Word) :
    (s.underPolicy p).pushJump op v target = (s.pushJump op v target).underPolicy p := by
  obtain hroom | hfull : s.sp.val < 16 ∨ s.sp.val = 16 := by omega
  · rw [State.pushJump_of_lt _ _ _ hroom, State.pushJump_of_lt (s := s.underPolicy p) _ _ _ hroom]
    rfl
  · rw [State.pushJump_of_full _ _ _ hfull, State.pushJump_of_full (s := s.underPolicy p) _ _ _ hfull]
    rfl

theorem State.popJump_underPolicy (op : Word) : (s.underPolicy p).popJump op = (s.popJump op).underPolicy p := by
  obtain hempty | hused := Nat.eq_zero_or_pos s.sp.val
  · rw [State.popJump_of_empty _ hempty, State.popJump_of_empty (s := s.underPolicy p) _ hempty]
    rfl
  · rw [State.popJump_of_pos _ hused, State.popJump_of_pos (s := s.underPolicy p) _ hused]
    rfl

theorem State.skipOrRaise_underPolicy (o : Option Bool) (f : Bool → Bool) (e : Error) :
    (match o with | some b => (s.underPolicy p).skipIf (f b) | none => (s.underPolicy p).raise e) =
      (match o with | some b => s.skipIf (f b) | none => s.raise e).underPolicy p := by
  cases o <;> rfl

/-! ### The two display operations under another policy -/

theorem State.hideDirty_clearDisplay_underPolicy :
    (s.underPolicy p).clearDisplay.hideDirty = (s.clearDisplay.underPolicy p).hideDirty := by
  have hpix : (s.underPolicy p).clearDisplay.disp.pix = s.clearDisplay.disp.pix :=
    Grid.ext_at fun a b => (State.clearDisplay_pix _ a b).trans (s.clearDisplay_pix a b).symm
  exact congrArg (fun g => { s.underPolicy p with disp := ⟨g, Grid.blank, []⟩ }) hpix

theorem State.hideDirty_draw_underPolicy (cs : List SetCall) :
    ((s.underPolicy p).draw cs).hideDirty = ((s.draw cs).underPolicy p).hideDirty := by
  obtain ⟨hpix, hflag⟩ := Display.run_pix_congr (s.underPolicy p).midDrain s.midDrain 0 0 cs (rfl : s.disp.pix = s.disp.pix)
  exact congrArg₂ (fun g f => { s.underPolicy p with disp := ⟨g, Grid.blank, []⟩ }.setV flagReg (flagByte f)) hpix hflag

/-- The sprite and its range check read nothing that the policy touches. -/
theorem State.hideDirty_drw_underPolicy (x y : Reg) (n : Fin 16) (op : Word) :
    ((s.underPolicy p).withRange op n.val ((s.underPolicy p).draw ((s.underPolicy p).drawCalls x y n)).advance).hideDirty =
      ((s.withRange op n.val (s.draw (s.drawCalls x y n)).advance).underPolicy p).hideDirty := by
  rw [State.drawCalls_underPolicy, ← State.withRange_underPolicy]
  have hdraw := congrArg State.advance (s.hideDirty_draw_underPolicy p (s.drawCalls x y n))
  calc ((s.underPolicy p).withRange op n.val ((s.underPolicy p).draw (s.drawCalls x y n)).advance).hideDirty
    _ = (s.underPolicy p).hideDirty.withRange op n.val ((s.underPolicy p).draw (s.drawCalls x y n)).advance.hideDirty :=
      dirtyView.hide_withRange _ _ _ _
    _ = (s.underPolicy p).hideDirty.withRange op n.val ((s.draw (s.drawCalls x y n)).advance.underPolicy p).hideDirty :=
      congrArg (State.withRange _ _ _) hdraw
    _ = _ := (dirtyView.hide_withRange _ _ _ _).symm

end

/-! ### An instruction under another policy (R289) -/

/-- Under another policy an instruction answers the same state under that policy, but for dirty bits and stream. -/
theorem exec_answers_underPolicy (i : Instr) (s : State) (p : DrainAtomicity) :
    ∃ t u, exec i s = .next t ∧ exec i (s.underPolicy p) = .next u ∧ u.hideDirty = (t.underPolicy p).hideDirty := by
  cases i with
  | jp | jpV0 | seImm | sneImm | seReg | sneReg | ldImm | addImm | ldReg | orReg | andReg | xorReg | addReg | subReg | shr
  | subnReg | shl | rnd | ldVxDt | ldVxK | ldDtVx | ldStVx | ldI | addI | ldF => exact ⟨_, _, rfl, rfl, rfl⟩
  | ret => exact ⟨_, _, rfl, rfl, congrArg State.hideDirty (s.popJump_underPolicy p _)⟩
  | call nnn => exact ⟨_, _, rfl, rfl, congrArg State.hideDirty (s.pushJump_underPolicy p _ _ _)⟩
  | skp x => exact ⟨_, _, rfl, rfl, congrArg State.hideDirty (s.skipOrRaise_underPolicy p _ id _)⟩
  | sknp x => exact ⟨_, _, rfl, rfl, congrArg State.hideDirty (s.skipOrRaise_underPolicy p _ not _)⟩
  | ldB | storeRegs => exact ⟨_, _, rfl, rfl, congrArg State.hideDirty (s.storeThenAdvance_underPolicy p _ _ _)⟩
  | loadRegs x => exact ⟨_, _, rfl, rfl, congrArg State.hideDirty (s.withRange_underPolicy p _ _ (s.loadThrough x).advance)⟩
  | cls => exact ⟨_, _, rfl, rfl, congrArg State.advance (s.hideDirty_clearDisplay_underPolicy p)⟩
  | drw x y n => exact ⟨_, _, rfl, rfl, s.hideDirty_drw_underPolicy p x y n _⟩

/-- States alike but for dirty bits and stream differ in the display alone, and not in its pixels. -/
theorem State.pix_and_frame_of_hideDirty_eq {s t : State} (h : s.hideDirty = t.hideDirty) :
    t.disp.pix = s.disp.pix ∧ SameExcept [.disp] s t := by
  obtain ⟨d, k, b, hdisp, rfl, rfl, rfl⟩ := View.alike_cases (w := dirtyView) h
  refine ⟨(dirtyView_disp_eq_iff.1 hdisp).symm, fun q hq => ?_⟩
  cases q <;> simp [Part.same, State.getV, State.readByte, dirtyView] at hq ⊢

/-- Settles O39: a drain changes no pixel, and no instruction reads anything else of the display. -/
theorem tearingNeverReachesTheCore : Obligations.TearingNeverReachesTheCore := by
  intro i s t u ht hu
  obtain ⟨t', u', ht', hu', hsame⟩ := exec_answers_underPolicy i (s.underPolicy .instruction) .pixel
  obtain rfl : t' = t := Host.Outcome.next.inj (ht'.symm.trans ht)
  obtain rfl : u' = u := Host.Outcome.next.inj (hu'.symm.trans hu)
  obtain ⟨hpix, hframe⟩ := State.pix_and_frame_of_hideDirty_eq hsame.symm
  exact ⟨hpix, ((SameExcept.underPolicy t' .pixel).mono (by simp)).trans (hframe.mono (by simp))⟩

end Sys2Proof.Machine
end
